-- ==== Sys2Proof/Word.lean ====
section
/-! DEFINITION. The words and the plainest arithmetic of 00_scope.md rules R9, R10 and R12. -/

namespace Sys2Proof

/-- A 32-bit word: a packet word, a time stamp, a phase, a readback value (R9). -/
abbrev Word := BitVec 32

/-- One byte of the export byte stream (R45). -/
abbrev Byte := BitVec 8

/-- A Q1.24 value: 25 bits, the value x standing for x / 2^24 (R12). -/
abbrev Q24 := BitVec 25

/-- A waveform code: 0 square, 1 sawtooth, 2 pulse-25%, 3 reserved (R18). -/
abbrev WaveCode := BitVec 2

/-- `clamp(v, lo, hi) = min(max(v, lo), hi)` (R10). -/
abbrev clamp (v lo hi : Int) : Int := min (max v lo) hi

end Sys2Proof
end

