-- ==== Sys2Proof/Config.lean ====
section
/-! DEFINITION. The constants of 00_scope.md rules R7 and R8 that are fixed for every machine, and the one free value.
The parameters that R8 leaves to a model's argument (SAMPLE_RATE, BURST_FRAMES, CMD_QUEUE_DEPTH, MELODIC_DECAY,
EXPORT_CHUNK_FRAMES) are the fields of `Sys2Proof.Machine.Params`. -/

namespace Sys2Proof.Config

/-- NUM_CHANNELS (R7): Lead, Bass, Kick, Snare, Hat. -/
abbrev numChannels : Nat := 5
/-- NUM_MEL_TRACKS (R7). -/
abbrev numMelTracks : Nat := 2
/-- NUM_DRUM_TRACKS (R7). -/
abbrev numDrumTracks : Nat := 3
/-- NUM_STEPS (R7). -/
abbrev numSteps : Nat := 16
/-- BPM_MIN (R7). -/
abbrev bpmMin : Nat := 40
/-- BPM_MAX (R7). -/
abbrev bpmMax : Nat := 240
/-- KICK_START_HZ (R7). -/
abbrev kickStartHz : Nat := 200
/-- KICK_FLOOR_HZ (R7). -/
abbrev kickFloorHz : Nat := 30
/-- OUT_MIN (R7): the least 16-bit signed sample. -/
abbrev outMin : Int := -32768
/-- OUT_MAX (R7): the greatest 16-bit signed sample. -/
abbrev outMax : Int := 32767
/-- WAV_HEADER_BYTES (R7). -/
abbrev wavHeaderBytes : Nat := 44

/-- VOLUME_MAX (R8, D16). -/
abbrev volumeMax : Nat := 32767
/-- VOLUME_RESET (R8, D17). -/
abbrev volumeReset : Nat := 16384
/-- BPM_RESET (R8, D18). -/
abbrev bpmReset : Nat := 120
/-- FREQ_MAX_HZ (R8, D15). -/
abbrev freqMaxHz : Nat := 65535
/-- EXPORT_MAX_LOOPS (R8, D41). -/
abbrev exportMaxLoops : Nat := 255
/-- ENV_ONE = 2^24, the Q1.24 value 1.0 (R8, R12, D20). -/
abbrev envOne : Q24 := 0x1000000#25
/-- KICK_DECAY, about 0.9997 (R8, D20). -/
abbrev kickDecay : Q24 := 0xFFEC57#25
/-- SNARE_DECAY, about 0.9988 (R8, D20). -/
abbrev snareDecay : Q24 := 0xFFB15B#25
/-- HAT_DECAY, about 0.9970 (R8, D20). -/
abbrev hatDecay : Q24 := 0xFF3B64#25
/-- KICK_PITCH_MULT, about 0.9991 (R8, D20). -/
abbrev kickPitchMult : Q24 := 0xFFC505#25
/-- ENV_EPSILON, about 0.001 (R8, D22). -/
abbrev envEpsilon : Nat := 16777
/-- LFSR_TAP_MASK (R8, D28). -/
abbrev lfsrTapMask : BitVec 15 := 0x6000#15
/-- SNARE_SEED (R8, D29). -/
abbrev snareSeed : BitVec 15 := 0x7FFF#15
/-- HAT_SEED (R8, D29). -/
abbrev hatSeed : BitVec 15 := 0x7FFF#15
/-- What the LFSR of a channel without noise holds at reset (R42). -/
abbrev idleSeed : BitVec 15 := 0x7FFF#15

/-- FREE VALUE (log entry 4; I15 "any value: each SinkOpen result is a free draw"): whether the storage sink opens
at its n-th SinkOpen call, for a call to which `Env.sessions` lists no answer. No body: nothing can be proved of it. -/
opaque sinkOpens : Nat → Bool

end Sys2Proof.Config
end

