-- ==== Sys2Proof/Syntax.lean ====
section
/-! DEFINITION. The instructions: the eleven commands of 30_encoding.md rule R63, one constructor per row of
spec/opcode_table.json, and the command packet they arrive in (R59).

An operand list holds the argument words the packet carries for that command, in order, signed 32-bit each (R61).
It may be SHORTER than the required count: such a packet is the command itself, dropped when it executes (R64, R155).
Surplus words (R65) are no operands and do not stand in it. -/

namespace Sys2Proof

/-- A command packet (R59): one header word, then the argument words. -/
structure Packet where
  header : Word
  args   : List Word
deriving DecidableEq, Repr

/-- The commands (R63). SEQ_START, SEQ_STOP and SEQ_CLEAR have no operands. -/
inductive Instr where
  | liveNoteOn (args : List Word)      -- 0x01: frequency, optional channel
  | liveNoteOff (args : List Word)     -- 0x02: optional channel
  | setWaveform (args : List Word)     -- 0x03: waveform
  | setVolume (args : List Word)       -- 0x04: volume
  | setMelodicStep (args : List Word)  -- 0x05: track, step, frequency, waveform
  | setDrumStep (args : List Word)     -- 0x06: track, step, hit
  | setBpm (args : List Word)          -- 0x07: bpm
  | seqStart                           -- 0x08
  | seqStop                            -- 0x09
  | seqClear                           -- 0x0A
  | exportWav (args : List Word)       -- 0x0B: loops
deriving DecidableEq, Repr

/-- Why the decoder gives no instruction. -/
inductive DecodeError where
  /-- OPC 0x00 or 0x0C to 0xFF (R66): such a packet is dropped at drain. -/
  | reservedOpcode (opc : BitVec 8)
  /-- The words after the header are not ARGC many: no packet of R59, and no port delivers it. -/
  | wordCount (argc got : Nat)
deriving DecidableEq, Repr

end Sys2Proof
end

