-- ==== Sys2Proof/Machine/State.lean ====
section
/-! DEFINITION. The state of the block, 10_state.md rules R15 to R36, with what the model needs beside it because its step
takes no argument: the parameters (R44), the time of the iteration in progress, the outside agents' next moves (R170, R171)
and the port outputs so far (R37). Plain data throughout. -/

namespace Sys2Proof.Machine

/-- A channel record (R15). -/
structure Channel where
  phase     : Word        -- PHASE, a full cycle is 2^32 (R16)
  freq      : Word        -- FREQ, Q16.16 Hz (R17)
  wave      : WaveCode    -- WAVE (R18)
  envLevel  : Q24         -- ENV_LEVEL (R19)
  envDecay  : Q24         -- ENV_DECAY (R20)
  active    : Bool        -- ACTIVE (R21)
  isNoise   : Bool        -- IS_NOISE (R22)
  pitchMult : Q24         -- PITCH_MULT (R23)
  lfsr      : BitVec 15   -- LFSR (R24, 90_conflicts.md C1)
deriving DecidableEq, Repr

/-- Five channel records: Lead 0, Bass 1, Kick 2, Snare 3, Hat 4 (R15). The live bank and the scratch bank are two of these (R33). -/
abbrev Bank := Vector Channel 5

/-- A melodic cell (R26). `freqHz = 0` is the rest marker. -/
structure MelCell where
  freqHz : BitVec 16
  wave   : WaveCode
deriving DecidableEq, Repr

/-- The PatternStore: `MEL[t][s]` (R26) and `DRUM[d][s].HIT` (R27). -/
structure PatternStore where
  mel  : Vector (Vector MelCell 16) 2
  drum : Vector (Vector Bool 16) 3
deriving DecidableEq, Repr

/-- The sequencer's fields (R28 to R31). -/
structure Sequencer where
  running     : Bool
  bpm         : BitVec 8
  currentStep : BitVec 4
  lastStepTs  : Word
deriving DecidableEq, Repr

/-- The global fields (R32, R34). -/
structure Globals where
  volume       : BitVec 15
  liveWave     : WaveCode
  exportStatus : BitVec 2
deriving DecidableEq, Repr

/-- A stereo frame: two 16-bit signed samples (R125). -/
structure Frame where
  left  : BitVec 16
  right : BitVec 16
deriving DecidableEq, Repr

/-- The model's parameters (R8, R44), fixed for a run: no step writes them (log entry 1). -/
structure Params where
  sampleRate   : Nat   -- SAMPLE_RATE, in [1, 192000]
  burstFrames  : Nat   -- BURST_FRAMES, at least 1
  queueDepth   : Nat   -- CMD_QUEUE_DEPTH, at least 1
  melodicDecay : Q24   -- MELODIC_DECAY, in [1, 2^24]
  chunkFrames  : Nat   -- EXPORT_CHUNK_FRAMES, at least 1
deriving DecidableEq, Repr

/-- A port event that may also fall inside a Service event, while an export runs (R171). -/
inductive SideEvent where
  | cmdAccept                      -- the command port takes the packet offered to it (R156)
  | readback (addr : BitVec 12)    -- a read of the readback port (R38)
deriving DecidableEq, Repr

/-- A port event (R37), one atomic step of the block (R5). -/
inductive PortEvent where
  | side (e : SideEvent)
  | service (now : Word)           -- one service iteration (R177)
deriving DecidableEq, Repr

/-- A line of a program (R71): a command line, `svc <now_us>`, `rb <addr>`. -/
inductive ProgramLine where
  | command (p : Packet)
  | svc (now : Word)
  | rb (addr : BitVec 12)
deriving DecidableEq, Repr

/-- What the outside does to one export: the storage sink's answer to SinkOpen (R44, I15), and the port events of other ports that fall inside the export
(R171): those before its first own port event, those before its second, and so on (log entry 5). -/
structure Session where
  opens  : Bool
  during : List (List SideEvent)
deriving DecidableEq, Repr

/-- The outside agents' next moves (R170), the model's own fields (log entries 2, 4 and 5). -/
structure Env where
  offered   : List Packet      -- what the control context holds at the command port, oldest first
  events    : List PortEvent   -- the port events to come, the next one first
  sessions  : List Session     -- the storage sessions to come, the next one first
  sinkCalls : Nat              -- how many times SinkOpen has been called
deriving DecidableEq, Repr

/-- What leaves the block at its ports (R37). -/
inductive PortOutput where
  | audioOut (frames : List Frame)
  | notify (index : BitVec 4)
  | sinkOpen (ok : Bool)
  | sinkWrite (bytes : List Byte)
  | sinkClose
  | exportDone (status : BitVec 2)
  | rbData (addr : BitVec 12) (data : Word)
deriving DecidableEq, Repr

/-- The block's state. -/
structure State where
  live      : Bank               -- the live bank, ch[c] (R15)
  scratch   : Bank               -- the scratch bank X of the exports (R33)
  pattern   : PatternStore       -- MEL and DRUM (R26, R27)
  seq       : Sequencer          -- seq.* (R28 to R31)
  g         : Globals            -- g.* (R32, R34)
  queue     : List Packet        -- Q, the head first (R35)
  frameBuf  : List Frame         -- the export frame buffer (R36, R135)
  params    : Params             -- the parameters (R44); the model's own field
  now       : Word               -- now_us of the service iteration in progress (R44); the model's own field
  env       : Env                -- the outside agents; the model's own field
  trace     : List PortOutput    -- the port outputs, oldest first (R187); the model's own field
deriving DecidableEq, Repr

/-- The internal operations that can raise a fault (R163: "The fault records its reason and the operation that raised it"). -/
inductive Operation where
  | memRead
  | memWrite
  | trigger
  | triggerPercussive
  | release
  | setMelodicStep
  | setDrumStep
  | triggerStep
  | renderSample
deriving DecidableEq, Repr

/-- FAULT, case (d) of the error taxonomy (R163): "final-and-bad", and unreachable from any sequence of port events. -/
inductive Fault where
  /-- INDEX_RANGE: an internal operation got an operand outside its domain. Raised by every operation but `renderSample` (and by
  that one on a channel index above 4). The spec's own outcome. Safe: the machine stops. -/
  | indexRange (op : Operation)
  /-- WAVE_CODE: the waveform selector read code 3 (R84). Raised by `renderSample`. The spec's own outcome. Safe: the machine stops. -/
  | waveCode (op : Operation)
deriving DecidableEq, Repr

/-- Why the model gives no next state and no fault of the block. -/
inductive Refusal where
  /-- An instruction without a meaning. Raised by an arm of `exec`. No arm raises it in this model. Safe. -/
  | notModelled (mnemonic : String)
  /-- The words offered at the command port are no packet of R59: the argument words are not ARGC many. Raised when the port would take
  them, and by a drain that finds them in Q. Safe: the command port delivers whole packets only (R59), so the block has no such step. -/
  | notAPacket (argc got : Nat)
deriving DecidableEq, Repr

/-! ### Reset (R42, R173) -/

/-- A channel record after reset, its LFSR aside (R42). -/
def Channel.reset (seed : BitVec 15) : Channel where
  phase := 0
  freq := 0
  wave := 0
  envLevel := 0
  envDecay := Config.envOne
  active := false
  isNoise := false
  pitchMult := Config.envOne
  lfsr := seed

/-- The channel reset values (R42), also the baseline of every export (R133). -/
def Bank.reset : Bank :=
  #v[Channel.reset Config.idleSeed, Channel.reset Config.idleSeed, Channel.reset Config.idleSeed,
     Channel.reset Config.snareSeed, Channel.reset Config.hatSeed]

/-- Every cell a rest or off (R42, R103). -/
def PatternStore.reset : PatternStore where
  mel := Vector.replicate 2 (Vector.replicate 16 ⟨0, 0⟩)
  drum := Vector.replicate 3 (Vector.replicate 16 false)

/-- DESIGN CHOICE (log entry 1): the parameter values 95_test_vectors.md uses where a vector names none. The spec leaves the first three OPEN,
so statements hold for every value of this field. -/
def Params.reset : Params where
  sampleRate := 16000
  burstFrames := 4
  queueDepth := 8
  melodicDecay := Config.envOne
  chunkFrames := 512

/-- DESIGN CHOICE (log entry 2): no agent has a move listed. -/
def Env.reset : Env where
  offered := []
  events := []
  sessions := []
  sinkCalls := 0

/-- The block right after reset (R42, R173). -/
def State.reset : State where
  live := Bank.reset
  scratch := Bank.reset
  pattern := PatternStore.reset
  seq := { running := false, bpm := BitVec.ofNat 8 Config.bpmReset, currentStep := 0, lastStepTs := 0 }
  g := { volume := BitVec.ofNat 15 Config.volumeReset, liveWave := 0, exportStatus := 0 }
  queue := []
  frameBuf := []
  params := Params.reset
  now := 0
  env := Env.reset
  trace := []

end Sys2Proof.Machine
end

