-- ==== Sys2Proof/Machine/Operands.lean ====
section
/-! DEFINITION. The operand forms: an argument word is a 32-bit two's complement integer (30_encoding.md rule R61), clamped to its field's
range before use (R68, R161). One definition per row of R68's table. -/

namespace Sys2Proof.Machine

/-- The signed value of an argument word, clamped to [lo, hi] (R61, R68; 0 ≤ lo in every row of the table). -/
def clampArg (w : Word) (lo hi : Nat) : Nat := (clamp w.toInt lo hi).toNat

/-- frequency of LIVE_NOTE_ON and SET_MELODIC_STEP, whole Hz. -/
def frequencyArg (w : Word) : Nat := clampArg w 0 Config.freqMaxHz
/-- channel of LIVE_NOTE_ON and LIVE_NOTE_OFF. -/
def channelArg (w : Word) : Nat := clampArg w 0 1
/-- The optional channel argument: the `k`-th operand, or 0 where the packet has none (R143, R144). -/
def optChannelArg (args : List Word) (k : Nat) : Nat :=
  match args[k]? with
  | some w => channelArg w
  | none => 0
/-- waveform of SET_WAVEFORM and SET_MELODIC_STEP. -/
def waveformArg (w : Word) : Nat := clampArg w 0 2
/-- volume of SET_VOLUME. -/
def volumeArg (w : Word) : Nat := clampArg w 0 Config.volumeMax
/-- track of SET_MELODIC_STEP. -/
def melodicTrackArg (w : Word) : Nat := clampArg w 0 1
/-- track of SET_DRUM_STEP. -/
def drumTrackArg (w : Word) : Nat := clampArg w 0 2
/-- step of SET_MELODIC_STEP and SET_DRUM_STEP. -/
def stepArg (w : Word) : Nat := clampArg w 0 15
/-- hit of SET_DRUM_STEP. -/
def hitArg (w : Word) : Nat := clampArg w 0 1
/-- bpm of SET_BPM. -/
def bpmArg (w : Word) : Nat := clampArg w Config.bpmMin Config.bpmMax
/-- loops of EXPORT. -/
def loopsArg (w : Word) : Nat := clampArg w 0 Config.exportMaxLoops

end Sys2Proof.Machine
end

