-- ==== Sys2Proof/Machine/Flags.lean ====
section
/-! DEFINITION. The block's flags are ACTIVE, IS_NOISE, RUNNING and HIT (00_scope.md rule R13); it has no condition codes. The values that a
rule computes for one of them stand here; the rules that write a constant write it in place. -/

namespace Sys2Proof.Machine

/-- ACTIVE of an active channel after a sample, from the decayed level: cleared when the level is below ENV_EPSILON (R91). -/
def activeAfter (level : Q24) : Bool := !decide (level.toNat < Config.envEpsilon)

/-- HIT from the clamped hit operand `h[0]` (R46, R148). -/
def hitFlag (h : Nat) : Bool := h.testBit 0

/-- A flag as a readback bit (R38). -/
def flagBit (b : Bool) : Nat := if b then 1 else 0

end Sys2Proof.Machine
end

