-- ==== Sys2Proof/Machine/Ops.lean ====
section
/-! DEFINITION. The named operations over the state: how outcomes chain, how each part of the state is replaced, the internal
operations of the channel banks (40_channelbank.md rules R73 to R77) and of the PatternStore (20_memory.md rule R46), the sink and
port primitives (00_scope.md rule R11), and what an error does (60_exceptions.md rules R159 to R163).

The block has no trap entry and no trap return (R167), so there is no exception entry to share: `drop` is the whole of case (a), a clamp the
whole of case (b), EXPORT's status the whole of case (c), and `raise` the whole of case (d). -/

namespace Sys2Proof.Machine

/-- What an internal operation gives: a value, or the fault it raises (R163). -/
abbrev Op (α : Type) := Except Fault α

/-- The outcomes of this machine. -/
abbrev Result := Host.Outcome State Fault Refusal

/-- Go on with the next state; a fault or a refusal ends the step (R166: "Nothing after it in the iteration happens"). -/
def andThen (o : Result) (f : State → Result) : Result :=
  match o with
  | .next s => f s
  | .fault r => .fault r
  | .refused r => .refused r

/-- An internal operation's result as the outcome of a step. -/
def ofOp (x : Op State) : Result :=
  match x with
  | .ok s => .next s
  | .error r => .fault r

/-- Go on with the value of an internal operation; its fault ends the step. -/
def opThen {α : Type} (x : Op α) (f : α → Result) : Result :=
  match x with
  | .ok a => f a
  | .error r => .fault r

/-- E_MALFORMED (R160): the packet has left Q already; nothing else changes. -/
def drop (s : State) : Result := .next s

/-- `raise Fault(INDEX_RANGE)` by `op` (R11, R163). -/
def raiseIndexRange {α : Type} (op : Operation) : Op α := .error (.indexRange op)

/-- `raise Fault(WAVE_CODE)` by `op` (R11, R84, R163). -/
def raiseWaveCode {α : Type} (op : Operation) : Op α := .error (.waveCode op)

/-! ### Replacing one part of the state -/

def State.withLive (s : State) (b : Bank) : State := { s with live := b }
def State.withScratch (s : State) (b : Bank) : State := { s with scratch := b }
def State.withPattern (s : State) (p : PatternStore) : State := { s with pattern := p }
def State.withSeq (s : State) (q : Sequencer) : State := { s with seq := q }
def State.withG (s : State) (g : Globals) : State := { s with g := g }
def State.withQueue (s : State) (q : List Packet) : State := { s with queue := q }
def State.withFrameBuf (s : State) (b : List Frame) : State := { s with frameBuf := b }
def State.withNow (s : State) (t : Word) : State := { s with now := t }
def State.withEnv (s : State) (e : Env) : State := { s with env := e }
/-- Port outputs, in order, after those so far (R129). -/
def State.emit (s : State) (os : List PortOutput) : State := { s with trace := s.trace ++ os }

/-! ### Channel banks -/

/-- `ch[c]`, for an operation that takes any channel of the bank. -/
def readChannel (op : Operation) (b : Bank) (c : Nat) : Op Channel :=
  if h : c < 5 then .ok b[c] else raiseIndexRange op

/-- The record a melodic trigger leaves (R73): the LFSR is unchanged. -/
def Channel.triggered (ch : Channel) (f w : Nat) (decay : Q24) : Channel :=
  { ch with
    phase := 0
    freq := BitVec.ofNat 32 (f * 2 ^ 16)
    wave := BitVec.ofNat 2 w
    envLevel := Config.envOne
    envDecay := decay
    active := true
    isNoise := false
    pitchMult := Config.envOne }

/-- `trigger(bank, c, f, w)` (R73), with MELODIC_DECAY. -/
def trigger (decay : Q24) (b : Bank) (c f w : Nat) : Op Bank :=
  if h : c < 2 then
    if 1 ≤ f ∧ f ≤ Config.freqMaxHz ∧ w ≤ 2 then .ok (b.set c (b[c].triggered f w decay))
    else raiseIndexRange .trigger
  else raiseIndexRange .trigger

/-- The record a Kick trigger leaves (R74): the LFSR is unchanged. -/
def Channel.kicked (ch : Channel) : Channel :=
  { ch with
    phase := 0
    freq := BitVec.ofNat 32 (Config.kickStartHz * 2 ^ 16)
    wave := 0
    envLevel := Config.envOne
    envDecay := Config.kickDecay
    active := true
    isNoise := false
    pitchMult := Config.kickPitchMult }

/-- The record a noise trigger leaves (R75, R76): FREQ and WAVE are unchanged. -/
def Channel.noised (ch : Channel) (decay : Q24) (seed : BitVec 15) : Channel :=
  { ch with
    phase := 0
    envLevel := Config.envOne
    envDecay := decay
    active := true
    isNoise := true
    pitchMult := Config.envOne
    lfsr := seed }

/-- `triggerPercussive(bank, c, KICK)` (R74). -/
def triggerKick (b : Bank) (c : Nat) : Op Bank :=
  if c = 2 then .ok (b.set 2 b[2].kicked) else raiseIndexRange .triggerPercussive

/-- `triggerPercussive(bank, c, SNARE)` (R75). -/
def triggerSnare (b : Bank) (c : Nat) : Op Bank :=
  if c = 3 then .ok (b.set 3 (b[3].noised Config.snareDecay Config.snareSeed)) else raiseIndexRange .triggerPercussive

/-- `triggerPercussive(bank, c, HAT)` (R76). -/
def triggerHat (b : Bank) (c : Nat) : Op Bank :=
  if c = 4 then .ok (b.set 4 (b[4].noised Config.hatDecay Config.hatSeed)) else raiseIndexRange .triggerPercussive

/-- The preset of percussive track `d` (R25, R104): `[KICK, SNARE, HAT][d]`. -/
def triggerPreset (b : Bank) (d c : Nat) : Op Bank :=
  match d with
  | 0 => triggerKick b c
  | 1 => triggerSnare b c
  | 2 => triggerHat b c
  | _ => raiseIndexRange .triggerPercussive

/-- The record a release leaves (R77). -/
def Channel.released (ch : Channel) : Channel := { ch with active := false, envLevel := 0 }

/-- `release(bank, c)` (R77): melodic channels only. -/
def release (b : Bank) (c : Nat) : Op Bank :=
  if h : c < 2 then .ok (b.set c b[c].released) else raiseIndexRange .release

/-- Both melodic channels released, as stop and clear do (R111, R112). -/
def releaseMelodic (b : Bank) : Op Bank := do
  let b ← release b 0
  release b 1

/-! ### PatternStore (R46) -/

/-- `MemRead(MEL, t, s)`. -/
def memReadMel (p : PatternStore) (t s : Nat) : Op MelCell :=
  if h : t < 2 ∧ s < 16 then .ok ((p.mel[t]'(h.1))[s]'(h.2)) else raiseIndexRange .memRead

/-- `MemRead(DRUM, d, s)`. -/
def memReadDrum (p : PatternStore) (d s : Nat) : Op Bool :=
  if h : d < 3 ∧ s < 16 then .ok ((p.drum[d]'(h.1))[s]'(h.2)) else raiseIndexRange .memRead

/-- `MemWrite(MEL, t, s, {f, w})`: both fields in one indivisible write (R57). -/
def memWriteMel (p : PatternStore) (t s : Nat) (cell : MelCell) : Op PatternStore :=
  if h : t < 2 ∧ s < 16 then
    .ok { p with mel := p.mel.set t ((p.mel[t]'(h.1)).set s cell h.2) h.1 }
  else raiseIndexRange .memWrite

/-- `MemWrite(DRUM, d, s, h)`. -/
def memWriteDrum (p : PatternStore) (d s : Nat) (hit : Bool) : Op PatternStore :=
  if h : d < 3 ∧ s < 16 then
    .ok { p with drum := p.drum.set d ((p.drum[d]'(h.1)).set s hit h.2) h.1 }
  else raiseIndexRange .memWrite

/-! ### Storage sink (R11, I15) -/

/-- What the next SinkOpen answers: the storage sink's listed answer, else a free draw. -/
def sinkAnswer (s : State) : Bool :=
  match s.env.sessions with
  | x :: _ => x.opens
  | [] => Config.sinkOpens s.env.sinkCalls

/-- SinkOpen has been called: its answer is used up. -/
def sinkOpened (s : State) : State :=
  s.withEnv { s.env with sessions := s.env.sessions.tail, sinkCalls := s.env.sinkCalls + 1 }

end Sys2Proof.Machine
end

