-- ==== Sys2Proof/Machine/Live.lean ====
section
/-! DEFINITION. The meanings of the live commands, 44_commands.md: LIVE_NOTE_ON (R143), LIVE_NOTE_OFF (R144), SET_WAVEFORM (R145) and
SET_VOLUME (R146). -/

namespace Sys2Proof.Machine

/-- A live note on channel `c` (R143): frequency 0 releases (D13), another triggers with the live waveform stored now (D14). -/
def liveNote (f c : Nat) (s : State) : Op State := do
  let b ← if f = 0 then release s.live c else trigger s.params.melodicDecay s.live c f s.g.liveWave.toNat
  .ok (s.withLive b)

/-- LIVE_NOTE_ON (R143): frequency, optional channel. No operand: dropped (R155). -/
def execLiveNoteOn (args : List Word) (s : State) : Result :=
  match args with
  | a0 :: rest => ofOp (liveNote (frequencyArg a0) (optChannelArg rest 0) s)
  | [] => drop s

/-- LIVE_NOTE_OFF (R144): optional channel. -/
def execLiveNoteOff (args : List Word) (s : State) : Result :=
  ofOp do
    let b ← release s.live (optChannelArg args 0)
    .ok (s.withLive b)

/-- SET_WAVEFORM (R145): the waveform of the next LIVE_NOTE_ON. No operand: dropped (R155). -/
def execSetWaveform (args : List Word) (s : State) : Result :=
  match args with
  | a0 :: _ => .next (s.withG { s.g with liveWave := BitVec.ofNat 2 (waveformArg a0) })
  | [] => drop s

/-- SET_VOLUME (R146): used from the next rendered sample on (R78). No operand: dropped (R155). -/
def execSetVolume (args : List Word) (s : State) : Result :=
  match args with
  | a0 :: _ => .next (s.withG { s.g with volume := BitVec.ofNat 15 (volumeArg a0) })
  | [] => drop s

end Sys2Proof.Machine
end

