-- ==== Sys2Proof/WellFormed.lean ====
section
/-! DEFINITION. Which instruction terms stand for a command: an operand list holds at most the required and optional
arguments of its command (30_encoding.md rules R63, R65: a surplus word is no operand). -/

namespace Sys2Proof

/-- The operands the packet carried. -/
def Instr.operands : Instr → List Word
  | .liveNoteOn args => args
  | .liveNoteOff args => args
  | .setWaveform args => args
  | .setVolume args => args
  | .setMelodicStep args => args
  | .setDrumStep args => args
  | .setBpm args => args
  | .seqStart => []
  | .seqStop => []
  | .seqClear => []
  | .exportWav args => args

/-- REQ, the number of required arguments (R63). -/
def Instr.required : Instr → Nat
  | .liveNoteOn _ => 1
  | .liveNoteOff _ => 0
  | .setWaveform _ => 1
  | .setVolume _ => 1
  | .setMelodicStep _ => 4
  | .setDrumStep _ => 3
  | .setBpm _ => 1
  | .seqStart => 0
  | .seqStop => 0
  | .seqClear => 0
  | .exportWav _ => 1

/-- OPTC, the number of optional arguments (R142). -/
def Instr.optional : Instr → Nat
  | .liveNoteOn _ => 1
  | .liveNoteOff _ => 1
  | .setWaveform _ => 0
  | .setVolume _ => 0
  | .setMelodicStep _ => 0
  | .setDrumStep _ => 0
  | .setBpm _ => 0
  | .seqStart => 0
  | .seqStop => 0
  | .seqClear => 0
  | .exportWav _ => 0

/-- No operand beyond those R63 gives the command. -/
def Instr.wf (i : Instr) : Bool := i.operands.length ≤ i.required + i.optional

end Sys2Proof
end

