-- ==== Sys2Proof/Decode.lean ====
section
/-! DEFINITION. The decoder and, after it, the encoder of command packets: 30_encoding.md rules R59 to R68. -/

namespace Sys2Proof

/-! ### Header fields (R60) -/

/-- OPC = H[7:0]. -/
def opcOf (h : Word) : BitVec 8 := h.extractLsb' 0 8

/-- ARGC = H[11:8]. -/
def argcOf (h : Word) : Nat := (h.extractLsb' 8 4).toNat

/-- A packet holds exactly ARGC argument words after its header (R59). -/
def Packet.wf (p : Packet) : Bool := p.args.length == argcOf p.header

/-! ### Decoder -/

/-- The command of a packet. H[31:12] is not read (R67). The operands are the first REQ + OPTC argument words (R142), so surplus words
are ignored (R65); a packet with fewer than REQ words still decodes to its command, which then drops it (R64). -/
def decode (p : Packet) : Except DecodeError Instr :=
  if p.wf then
    match (opcOf p.header).toNat with
    | 0x01 => .ok (.liveNoteOn (p.args.take 2))
    | 0x02 => .ok (.liveNoteOff (p.args.take 1))
    | 0x03 => .ok (.setWaveform (p.args.take 1))
    | 0x04 => .ok (.setVolume (p.args.take 1))
    | 0x05 => .ok (.setMelodicStep (p.args.take 4))
    | 0x06 => .ok (.setDrumStep (p.args.take 3))
    | 0x07 => .ok (.setBpm (p.args.take 1))
    | 0x08 => .ok .seqStart
    | 0x09 => .ok .seqStop
    | 0x0A => .ok .seqClear
    | 0x0B => .ok (.exportWav (p.args.take 1))
    | _ => .error (.reservedOpcode (opcOf p.header))
  else .error (.wordCount (argcOf p.header) p.args.length)

/-- Length decoding (R62): the first packet of a word sequence and the words after it. The length never depends on OPC.
None where the words end inside the packet. -/
def takePacket : List Word → Option (Packet × List Word)
  | [] => none
  | h :: ws =>
    if argcOf h ≤ ws.length then some (⟨h, ws.take (argcOf h)⟩, ws.drop (argcOf h)) else none

/-- Word `k` of a number whose bit 0 is bit 0 of the first word. -/
def wordAt (w k : Nat) : Word := BitVec.ofNat 32 (w >>> (32 * k))

/-- The packet whose words are the bits of `w`, bit 0 the least significant bit of the header, every bit from `nbits` up zero. -/
def packetOfNat (nbits w : Nat) : Packet :=
  let v := w % 2 ^ nbits
  let h := wordAt v 0
  ⟨h, (List.range (argcOf h)).map fun k => wordAt v (k + 1)⟩

/-- The instruction this decoder reads from the bits `w`, numbered as spec/opcode_table.json numbers them; none where it refuses. -/
def decodeTableWord (nbits w : Nat) : Option Instr :=
  match decode (packetOfNat nbits w) with
  | .ok i => some i
  | .error _ => none

/-! ### Encoder -/

/-- OPC of a command (R63). -/
def opcode : Instr → BitVec 8
  | .liveNoteOn _ => 0x01#8
  | .liveNoteOff _ => 0x02#8
  | .setWaveform _ => 0x03#8
  | .setVolume _ => 0x04#8
  | .setMelodicStep _ => 0x05#8
  | .setDrumStep _ => 0x06#8
  | .setBpm _ => 0x07#8
  | .seqStart => 0x08#8
  | .seqStop => 0x09#8
  | .seqClear => 0x0A#8
  | .exportWav _ => 0x0B#8

/-- A header word (R60), the reserved bits zero (R67: "Software should write them as zero"). -/
def headerOf (opc : BitVec 8) (argc : Nat) : Word := 0#20 ++ BitVec.ofNat 4 argc ++ opc

/-- The packet of a well-formed instruction: its header, then its operands in order. -/
def encode (i : Instr) : Packet := ⟨headerOf (opcode i) i.operands.length, i.operands⟩

end Sys2Proof
end

