-- ==== Sys2Proof/Machine/Access.lean ====
section
/-! DEFINITION. The two ports that other agents use at any time, the command port (44_commands.md rule R156) and the readback port (10_state.md rules R38
and R39): their events may fall between service iterations and inside an export (60_exceptions.md rule R171). -/

namespace Sys2Proof.Machine

/-! ### Command port -/

/-- `cmd_ready` (R156). -/
def cmdReady (s : State) : Bool := s.queue.length < s.params.queueDepth

/-- CmdAccept (R156): with room in Q, the oldest packet offered goes to the tail of Q, whatever its content. Without room, or with nothing offered, the
event is not enabled: the packet stays at the port and nothing is lost. -/
def cmdAccept (s : State) : Result :=
  match s.env.offered with
  | [] => .next s
  | p :: ps =>
    if cmdReady s then
      if p.wf then .next ((s.withQueue (s.queue ++ [p])).withEnv { s.env with offered := ps })
      else .refused (.notAPacket (argcOf p.header) p.args.length)
    else .next s

/-! ### Readback port -/

/-- Field `k` of a channel record (R38), fields 7 to 15 unmapped. -/
def channelField (ch : Channel) (k : Nat) : Nat :=
  match k with
  | 0 => flagBit ch.active + 2 * flagBit ch.isNoise + 2 ^ 4 * ch.wave.toNat
  | 1 => ch.phase.toNat
  | 2 => ch.freq.toNat
  | 3 => ch.envLevel.toNat
  | 4 => ch.envDecay.toNat
  | 5 => ch.pitchMult.toNat
  | 6 => ch.lfsr.toNat
  | _ => 0

/-- The control word at addresses 0x000 to 0x006 (R38). -/
def controlField (s : State) (a : Nat) : Nat :=
  match a with
  | 0 => flagBit s.seq.running + 2 ^ 4 * s.seq.currentStep.toNat
  | 1 => s.seq.bpm.toNat
  | 2 => s.seq.lastStepTs.toNat
  | 3 => s.g.volume.toNat
  | 4 => s.g.liveWave.toNat
  | 5 => s.g.exportStatus.toNat
  | 6 => min s.queue.length 31
  | _ => 0

/-- A melodic cell as a readback word (R38, R105): `(w << 16) | f`. -/
def melWord (cell : MelCell) : Nat := cell.freqHz.toNat + 2 ^ 16 * cell.wave.toNat

/-- The readback map (R38); an address it does not list reads 0 (R39). Block `a / 0x100` is the table's hundred, row `a / 0x10 % 0x10` the channel or the
track, `a % 0x10` the field or the step. -/
def readbackNat (s : State) (a : Nat) : Nat :=
  let row := a / 16 % 16
  let col := a % 16
  match a / 256 with
  | 0 => controlField s a
  | 1 => if h : row < 5 then channelField s.live[row] col else 0
  | 2 => if h : row < 2 then melWord (s.pattern.mel[row][col]'(by omega)) else 0
  | 3 => if h : row < 3 then flagBit ((s.pattern.drum[row])[col]'(by omega)) else 0
  | _ => 0

/-- `rb_data` for an address. -/
def readback (s : State) (addr : BitVec 12) : Word := BitVec.ofNat 32 (readbackNat s addr.toNat)

/-- Readback (R37, R39): its data leaves at the port and nothing else changes. -/
def readbackEvent (addr : BitVec 12) (s : State) : State := s.emit [.rbData addr (readback s addr)]

/-! ### What may also fall inside a service iteration, while an export runs (R171) -/

/-- A CmdAccept or a Readback event. -/
def sideEvent (e : SideEvent) (s : State) : Result :=
  match e with
  | .cmdAccept => cmdAccept s
  | .readback addr => .next (readbackEvent addr s)

/-- Several of them, one after another. -/
def sideEvents : List SideEvent → State → Result
  | [], s => .next s
  | e :: es, s => andThen (sideEvent e s) (sideEvents es)

end Sys2Proof.Machine
end

