-- ==== Sys2Proof/Machine/Voice.lean ====
section
/-! DEFINITION. One sample of one channel: the datapath units of 40_channelbank.md rules R78 to R92 and renderSample (R86, R87). Values are
computed exactly as integers and narrowed at the end (R93). `a div b` of R10 is floor division; with a positive divisor that is
Lean's `/` on Nat and on Int. -/

namespace Sys2Proof.Machine

/-- `peak = g.VOLUME div 5` (R78). -/
def peak (volume : BitVec 15) : Int := volume.toNat / 5

/-- `inc(F) = u32((F * 2^16) div SAMPLE_RATE)` (R79). -/
def phaseInc (sampleRate : Nat) (freq : Word) : Word := BitVec.ofNat 32 (freq.toNat * 2 ^ 16 / sampleRate)

/-- The square wave (R80). -/
def squareWave (p : Int) (phase : Word) : Int := if phase.toNat < 2 ^ 31 then p else -p

/-- The sawtooth wave (R81, 90_conflicts.md C8). -/
def sawtoothWave (p : Int) (phase : Word) : Int := -p + 2 * p * phase.toNat / 2 ^ 32

/-- The pulse-25% wave (R82). -/
def pulseWave (p : Int) (phase : Word) : Int := if phase.toNat < 2 ^ 30 then p else -p

/-- The noise output (R83), from the LFSR before this sample's advance. -/
def noiseWave (p : Int) (lfsr : BitVec 15) : Int := if lfsr.getLsbD 0 then p else -p

/-- The waveform selector (R80 to R82); code 3 faults (R84). -/
def selectWave (p : Int) (wave : WaveCode) (phase : Word) : Op Int :=
  match wave.toNat with
  | 0 => .ok (squareWave p phase)
  | 1 => .ok (sawtoothWave p phase)
  | 2 => .ok (pulseWave p phase)
  | _ => raiseWaveCode .renderSample

/-- The waveform value of an active channel: noise, or the selector's. -/
def channelWave (p : Int) (ch : Channel) : Op Int :=
  if ch.isNoise then .ok (noiseWave p ch.lfsr) else selectWave p ch.wave ch.phase

/-- Envelope application, `asr(w * ENV_LEVEL, 24)` (R85). -/
def applyEnvelope (w : Int) (level : Q24) : Int := w * level.toNat / 2 ^ 24

/-- One Galois right-shift step of the noise register (R89). -/
def lfsrStep (l : BitVec 15) : BitVec 15 :=
  if l.getLsbD 0 then (l >>> 1) ^^^ Config.lfsrTapMask else l >>> 1

/-- The envelope decay multiplier (R90). -/
def decayLevel (level decay : Q24) : Q24 := BitVec.ofNat 25 (level.toNat * decay.toNat / 2 ^ 24)

/-- The pitch-sweep modulator (R92): FREQ unchanged at PITCH_MULT = ENV_ONE, else multiplied and floored at 30 Hz. -/
def sweepFreq (freq : Word) (mult : Q24) : Word :=
  if mult = Config.envOne then freq
  else BitVec.ofNat 32 (max (freq.toNat * mult.toNat / 2 ^ 24) (Config.kickFloorHz * 2 ^ 16))

/-- The record of an active channel after one sample (R88 to R92). Every right side reads the record from before the sample, but the deactivation
test, which reads the decayed level (R91); the phase advance uses FREQ from before the sweep (R87). -/
def Channel.advanced (sampleRate : Nat) (ch : Channel) : Channel :=
  { ch with
    phase := if ch.isNoise then ch.phase else ch.phase + phaseInc sampleRate ch.freq
    lfsr := if ch.isNoise then lfsrStep ch.lfsr else ch.lfsr
    envLevel := decayLevel ch.envLevel ch.envDecay
    active := activeAfter (decayLevel ch.envLevel ch.envDecay)
    freq := sweepFreq ch.freq ch.pitchMult }

/-- `renderSample` on one record (R86, R87): the amplitude from the state before the sample, and the record after it. -/
def Channel.render (sampleRate : Nat) (p : Int) (ch : Channel) : Op (Int × Channel) :=
  if ch.active then do
    let w ← channelWave p ch
    .ok (applyEnvelope w ch.envLevel, ch.advanced sampleRate)
  else .ok (0, ch)

/-- `renderSample(bank, c)` (R87): it writes only `ch[c]` of the bank (R97). -/
def renderSample (sampleRate : Nat) (p : Int) (b : Bank) (c : Nat) : Op (Int × Bank) :=
  if h : c < 5 then do
    let (a, ch) ← b[c].render sampleRate p
    .ok (a, b.set c ch)
  else raiseIndexRange .renderSample

end Sys2Proof.Machine
end

