-- ==== Sys2Proof/Machine/Mixer.lean ====
section
/-! DEFINITION. The mixer and the live sink: 43_mixer_rendersink.md rules R122 to R129. -/

namespace Sys2Proof.Machine

/-- The clamp to the 16-bit signed output range (R124). -/
def clampSample (acc : Int) : Int := clamp acc Config.outMin Config.outMax

/-- A frame of one sample on both channels (R125). -/
def stereo (s : Int) : Frame := ⟨BitVec.ofInt 16 s, BitVec.ofInt 16 s⟩

/-- `mixFrame(bank)` (R122): all five channels rendered in index order, their exact sum (R123) clamped and duplicated. -/
def mixFrame (sampleRate : Nat) (p : Int) (b : Bank) : Op (Frame × Bank) := do
  let (a0, b) ← renderSample sampleRate p b 0
  let (a1, b) ← renderSample sampleRate p b 1
  let (a2, b) ← renderSample sampleRate p b 2
  let (a3, b) ← renderSample sampleRate p b 3
  let (a4, b) ← renderSample sampleRate p b 4
  .ok (stereo (clampSample (a0 + a1 + a2 + a3 + a4)), b)

/-- `n` frames in synthesis order (R129), and the bank after them. -/
def mixFrames (sampleRate : Nat) (p : Int) : Nat → Bank → Op (List Frame × Bank)
  | 0, b => .ok ([], b)
  | n + 1, b => do
    let (f, b) ← mixFrame sampleRate p b
    let (fs, b) ← mixFrames sampleRate p n b
    .ok (f :: fs, b)

/-- `liveBurst()` (R127, R128): exactly BURST_FRAMES frames of the live bank, in every service iteration. -/
def liveBurst (s : State) : Op State := do
  let (fs, b) ← mixFrames s.params.sampleRate (peak s.g.volume) s.params.burstFrames s.live
  .ok ((s.withLive b).emit [.audioOut fs])

end Sys2Proof.Machine
end

