-- ==== Sys2Proof/Machine/Pattern.lean ====
section
/-! DEFINITION. The PatternStore operations and the step trigger, 41_pattern_dispatch.md rules R101 to R107, and the meanings of
SET_MELODIC_STEP (44_commands.md R147) and SET_DRUM_STEP (R148). -/

namespace Sys2Proof.Machine

/-- `setMelodicStep(t, s, f, w)` (R101); out-of-range operands fault. -/
def setMelodicStep (p : PatternStore) (t s f w : Nat) : Op PatternStore :=
  if t < Config.numMelTracks ∧ s < Config.numSteps ∧ f ≤ Config.freqMaxHz ∧ w ≤ 2 then
    memWriteMel p t s ⟨BitVec.ofNat 16 f, BitVec.ofNat 2 w⟩
  else raiseIndexRange .setMelodicStep

/-- `setDrumStep(d, s, h)` (R102); out-of-range operands fault. -/
def setDrumStep (p : PatternStore) (d s h : Nat) : Op PatternStore :=
  if d < Config.numDrumTracks ∧ s < Config.numSteps ∧ h ≤ 1 then memWriteDrum p d s (hitFlag h)
  else raiseIndexRange .setDrumStep

/-- `clear()` (R103): every step a rest or off, the waveform fields 0 (D54). -/
def clearPattern : PatternStore where
  mel := Vector.replicate 2 (Vector.replicate 16 ⟨0, 0⟩)
  drum := Vector.replicate 3 (Vector.replicate 16 false)

/-- triggerStep on melodic track `t` (R104): a note triggers its channel, a rest releases it. -/
def triggerMelodicTrack (decay : Q24) (p : PatternStore) (s : Nat) (b : Bank) (t : Nat) : Op Bank := do
  let cell ← memReadMel p t s
  if cell.freqHz.toNat ≠ 0 then trigger decay b t cell.freqHz.toNat cell.wave.toNat
  else release b t

/-- triggerStep on percussive track `d` (R104): a hit fires the preset of channel `2 + d` (R25); off leaves the channel alone. -/
def triggerDrumTrack (p : PatternStore) (s : Nat) (b : Bank) (d : Nat) : Op Bank := do
  let hit ← memReadDrum p d s
  if hit then triggerPreset b d (2 + d) else .ok b

/-- `triggerStep(bank, s)` (R104): melodic tracks 0 and 1, then percussive tracks 0, 1 and 2. -/
def triggerStep (decay : Q24) (p : PatternStore) (b : Bank) (s : Nat) : Op Bank :=
  if s < Config.numSteps then do
    let b ← triggerMelodicTrack decay p s b 0
    let b ← triggerMelodicTrack decay p s b 1
    let b ← triggerDrumTrack p s b 0
    let b ← triggerDrumTrack p s b 1
    triggerDrumTrack p s b 2
  else raiseIndexRange .triggerStep

/-- SET_MELODIC_STEP (R147): one cell, both fields at once (R57). Fewer than four operands: dropped (R155). -/
def execSetMelodicStep (args : List Word) (s : State) : Result :=
  match args with
  | a0 :: a1 :: a2 :: a3 :: _ =>
    ofOp do
      let p ← setMelodicStep s.pattern (melodicTrackArg a0) (stepArg a1) (frequencyArg a2) (waveformArg a3)
      .ok (s.withPattern p)
  | _ => drop s

/-- SET_DRUM_STEP (R148). Fewer than three operands: dropped (R155). -/
def execSetDrumStep (args : List Word) (s : State) : Result :=
  match args with
  | a0 :: a1 :: a2 :: _ =>
    ofOp do
      let p ← setDrumStep s.pattern (drumTrackArg a0) (stepArg a1) (hitArg a2)
      .ok (s.withPattern p)
  | _ => drop s

end Sys2Proof.Machine
end

