-- ==== Sys2Proof/Machine/Recording.lean ====
section
/-! DEFINITION. The export sink, 43_mixer_rendersink.md rules R130 to R141: sizes, render loop, chunked writes, the WAVE container; and the meaning
of EXPORT (44_commands.md R153). -/

namespace Sys2Proof.Machine

/-! ### Byte stream (R47) -/

/-- The `n` bytes of `v`, the least significant first: the one place where byte order is decided (R47). -/
def leBytes (n v : Nat) : List Byte := (List.range n).map fun k => BitVec.ofNat 8 (v >>> (8 * k))

/-- A frame's four bytes: L low, L high, R low, R high (R139). -/
def frameBytes (f : Frame) : List Byte := leBytes 2 f.left.toNat ++ leBytes 2 f.right.toNat

/-- The bytes of consecutive frames. -/
def framesBytes (fs : List Frame) : List Byte := fs.flatMap frameBytes

/-- `wavHeader(SR, dataBytes)`, 44 bytes (R138). -/
def wavHeader (sampleRate dataBytes : Nat) : List Byte :=
  [0x52#8, 0x49#8, 0x46#8, 0x46#8] ++ leBytes 4 (36 + dataBytes) ++
  [0x57#8, 0x41#8, 0x56#8, 0x45#8] ++ [0x66#8, 0x6D#8, 0x74#8, 0x20#8] ++
  leBytes 4 16 ++ leBytes 2 1 ++ leBytes 2 2 ++ leBytes 4 sampleRate ++ leBytes 4 (sampleRate * 4) ++
  leBytes 2 4 ++ leBytes 2 16 ++
  [0x64#8, 0x61#8, 0x74#8, 0x61#8] ++ leBytes 4 dataBytes

/-! ### Sizes (R132) -/

/-- `sps = (15 * SAMPLE_RATE) div b`. -/
def samplesPerStep (sampleRate : Nat) (bpm : BitVec 8) : Nat := 15 * sampleRate / bpm.toNat

/-- `dataBytes = 4 * N * 16 * sps`. -/
def exportDataBytes (s : State) (loops : Nat) : Nat :=
  4 * (loops * Config.numSteps * samplesPerStep s.params.sampleRate s.seq.bpm)

/-! ### Render loop (R134) -/

/-- One step of one loop: triggerStep on the scratch bank, then exactly sps frames of it. -/
def exportStep (s : State) (x : Bank) (step : Nat) : Op (List Frame × Bank) := do
  let x ← triggerStep s.params.melodicDecay s.pattern x step
  mixFrames s.params.sampleRate (peak s.g.volume) (samplesPerStep s.params.sampleRate s.seq.bpm) x

/-- The steps of a list in order, the voices carrying over from step to step. -/
def exportSteps (s : State) : List Nat → Bank → Op (List Frame × Bank)
  | [], x => .ok ([], x)
  | step :: steps, x => do
    let (fs, x) ← exportStep s x step
    let (gs, x) ← exportSteps s steps x
    .ok (fs ++ gs, x)

/-- `n` loops over the steps 0 to 15, the voices carrying over from loop to loop. -/
def exportLoops (s : State) : Nat → Bank → Op (List Frame × Bank)
  | 0, x => .ok ([], x)
  | n + 1, x => do
    let (fs, x) ← exportSteps s (List.range Config.numSteps) x
    let (gs, x) ← exportLoops s n x
    .ok (fs ++ gs, x)

/-! ### Chunked writes (R135) -/

/-- The frames go through the buffer one by one: when EXPORT_CHUNK_FRAMES have been collected they go out in one SinkWrite. Gives the writes, each as
its frames, and what is left in the buffer. -/
def chunkFrames (chunk : Nat) : List Frame → List Frame → List (List Frame) × List Frame
  | buf, [] => ([], buf)
  | buf, f :: fs =>
    if (buf ++ [f]).length = chunk then
      let r := chunkFrames chunk [] fs
      ((buf ++ [f]) :: r.1, r.2)
    else chunkFrames chunk (buf ++ [f]) fs

/-- All the data writes of an export: the full chunks, then the remainder if there is one. -/
def dataWrites (chunk : Nat) (fs : List Frame) : List (List Frame) :=
  let r := chunkFrames chunk [] fs
  if r.2 = [] then r.1 else r.1 ++ [r.2]

/-! ### Export -/

/-- What an opened session writes, in order: the header first, then the data, then the close (R130, R135, R136). -/
def sessionOutputs (s : State) (loops : Nat) (fs : List Frame) : List PortOutput :=
  .sinkWrite (wavHeader s.params.sampleRate (exportDataBytes s loops)) ::
    (dataWrites s.params.chunkFrames fs).map (fun c => .sinkWrite (framesBytes c)) ++ [.sinkClose]

/-- The end of every export: the status and its report (R131, R136). -/
def exportDone (status : BitVec 2) (s : State) : State :=
  (s.withG { s.g with exportStatus := status }).emit [.exportDone status]

/-- The port events of other ports that fall inside the next export, as the storage session lists them: the first list before the export's first own port
event (SinkOpen), each further one before its next own port event, the last one before `export_done` (R171, log entry 5). -/
def insideEvents (s : State) : List (List SideEvent) := s.env.sessions.head?.elim [] Session.during

/-- The own port events of an export, in order, each after the events of other ports that fall before it; the last is the report of the status. Lists beyond it
name no moment of the export and are not performed. -/
def exportSession (status : BitVec 2) : List PortOutput → List (List SideEvent) → State → Result
  | [], inside, s => andThen (sideEvents (inside.headD []) s) fun s => .next (exportDone status s)
  | o :: os, inside, s =>
    andThen (sideEvents (inside.headD []) s) fun s => exportSession status os inside.tail (s.emit [o])

/-- `export(N)` (R130). SinkOpen's answer is used up; on a failure nothing is written and only EXPORT_STATUS changes (R131). On success the scratch bank
starts from the baseline (R133) and holds the render's last records afterwards; the live bank, the sequencer and Q are neither read nor written (R137), but Q
takes the packets accepted inside (R141). The buffer keeps its last content, as in the pseudocode. No other port shows the scratch bank or the buffer (R39), so
they are set before the session. -/
def runExport (loops : Nat) (s : State) : Result :=
  if sinkAnswer s then
    opThen (exportLoops s loops Bank.reset) fun r =>
      exportSession 1 (.sinkOpen true :: sessionOutputs s loops r.1) (insideEvents s)
        (((sinkOpened s).withScratch r.2).withFrameBuf (chunkFrames s.params.chunkFrames [] r.1).2)
  else exportSession 2 [.sinkOpen false] (insideEvents s) (sinkOpened s)

/-- EXPORT (R153). No operand: dropped (R155). -/
def execExportWav (args : List Word) (s : State) : Result :=
  match args with
  | a0 :: _ => runExport (loopsArg a0) s
  | [] => drop s

end Sys2Proof.Machine
end

