-- ==== Sys2Proof/Machine/Sequencing.lean ====
section
/-! DEFINITION. The sequencer, 42_sequencer.md rules R108 to R121, and the meanings of SET_BPM, SEQ_START, SEQ_STOP and SEQ_CLEAR
(44_commands.md rules R149 to R152). -/

namespace Sys2Proof.Machine

/-- `STEP_US(bpm) = 15000000 div bpm`, in µs (R109, 90_conflicts.md C7). -/
def stepUs (bpm : BitVec 8) : Nat := 15000000 / bpm.toNat

/-- `start(now)` (R110), also from Running (D34). Channels are not touched. -/
def seqStart (s : State) : State :=
  s.withSeq { s.seq with running := true, currentStep := 0, lastStepTs := s.now }

/-- `stop()` (R111), also from Stopped (D35): percussion rings out. -/
def seqStop (s : State) : Op State := do
  let b ← releaseMelodic s.live
  .ok ((s.withSeq { s.seq with running := false }).withLive b)

/-- `seqClear()` (R112): RUNNING, CURRENT_STEP and LAST_STEP_TS are unchanged. -/
def seqClear (s : State) : Op State := do
  let b ← releaseMelodic s.live
  .ok ((s.withPattern clearPattern).withLive b)

/-- A step is due (R113 step 2): `u32(now - LAST_STEP_TS) >= STEP_US(BPM)`, BPM read afresh (R116), the difference mod 2^32 (R119). -/
def stepDue (s : State) : Bool := stepUs s.seq.bpm ≤ (s.now - s.seq.lastStepTs).toNat

/-- A due step (R113 steps 2 to 5): the reference advances by the step's length, not to now (R115); the step is triggered, then notified under its
own index (R117), then the pointer advances, 15 wrapping to 0 (R118). -/
def fireStep (s : State) : Op State := do
  let b ← triggerStep s.params.melodicDecay s.pattern s.live s.seq.currentStep.toNat
  .ok (((s.withLive b).emit [.notify s.seq.currentStep]).withSeq
    { s.seq with
      lastStepTs := s.seq.lastStepTs + BitVec.ofNat 32 (stepUs s.seq.bpm)
      currentStep := s.seq.currentStep + 1 })

/-- `clockTick(now)` (R113), `now` being the iteration's: at most one step a call (R114), nothing while Stopped (R121). -/
def clockTick (s : State) : Op State :=
  if s.seq.running && stepDue s then fireStep s else .ok s

/-- SET_BPM (R149): LAST_STEP_TS does not move. No operand: dropped (R155). -/
def execSetBpm (args : List Word) (s : State) : Result :=
  match args with
  | a0 :: _ => .next (s.withSeq { s.seq with bpm := BitVec.ofNat 8 (bpmArg a0) })
  | [] => drop s

/-- SEQ_START (R150), with the `now_us` of the iteration that drains it. -/
def execSeqStart (s : State) : Result := .next (seqStart s)

/-- SEQ_STOP (R151). -/
def execSeqStop (s : State) : Result := ofOp (seqStop s)

/-- SEQ_CLEAR (R152). -/
def execSeqClear (s : State) : Result := ofOp (seqClear s)

end Sys2Proof.Machine
end

