-- ==== Sys2Proof/Machine/Dispatch.lean ====
section
/-! DEFINITION. Which meaning each command has: one arm per constructor, in the order of the opcode map (30_encoding.md rule R63). -/

namespace Sys2Proof.Machine

def exec (i : Instr) (s : State) : Host.Outcome State Fault Refusal :=
  match i with
  | .liveNoteOn args => Sys2Proof.Machine.execLiveNoteOn args s
  | .liveNoteOff args => Sys2Proof.Machine.execLiveNoteOff args s
  | .setWaveform args => Sys2Proof.Machine.execSetWaveform args s
  | .setVolume args => Sys2Proof.Machine.execSetVolume args s
  | .setMelodicStep args => Sys2Proof.Machine.execSetMelodicStep args s
  | .setDrumStep args => Sys2Proof.Machine.execSetDrumStep args s
  | .setBpm args => Sys2Proof.Machine.execSetBpm args s
  | .seqStart => Sys2Proof.Machine.execSeqStart s
  | .seqStop => Sys2Proof.Machine.execSeqStop s
  | .seqClear => Sys2Proof.Machine.execSeqClear s
  | .exportWav args => Sys2Proof.Machine.execExportWav args s

end Sys2Proof.Machine
end

