-- ==== Sys2Proof/Machine/Ports.lean ====
section
/-! DEFINITION. The service iteration of 70_reset_and_hazards.md rule R177 with its drain (44_commands.md R157), clock tick and burst, and the next port event
(10_state.md rule R37), each one atomic step. -/

namespace Sys2Proof.Machine

/-! ### Service -/

/-- Executing one drained packet (R142). A reserved opcode is dropped (R154); the checks come before any clamp (R166). -/
def executePacket (p : Packet) (s : State) : Result :=
  match decode p with
  | .ok i => exec i s
  | .error (.reservedOpcode _) => drop s
  | .error (.wordCount argc got) => .refused (.notAPacket argc got)

/-- The drain (R157): exactly `k` packets from the head of Q, in order; packets accepted meanwhile stay at the tail. -/
def drain : Nat → State → Result
  | 0, s => .next s
  | k + 1, s =>
    match s.queue with
    | [] => .next s
    | p :: ps => andThen (executePacket p (s.withQueue ps)) (drain k)

/-- The clock tick and then the live burst, steps 2 and 3 of an iteration (R177). -/
def tickAndBurst (s : State) : Result := andThen (ofOp (clockTick s)) fun s => ofOp (liveBurst s)

/-- `Service(now)` (R177): drain the packets that Q holds at its beginning, tick, burst. -/
def service (now : Word) (s : State) : Result :=
  andThen (drain s.queue.length (s.withNow now)) tickAndBurst

/-! ### The next port event -/

def portEvent (e : PortEvent) (s : State) : Result :=
  match e with
  | .side e => sideEvent e s
  | .service now => service now s

/-- One step: the next port event of the schedule (R5, R54). With none listed the block holds its state (R172). -/
def nextEvent (s : State) : Result :=
  match s.env.events with
  | [] => .next s
  | e :: es => portEvent e (s.withEnv { s.env with events := es })

/-- A state whose next port event is a service iteration that drains exactly this packet (log entry 2). -/
def withPacket (p : Packet) (s : State) : State :=
  (s.withQueue [p]).withEnv { s.env with events := .service s.now :: s.env.events }

end Sys2Proof.Machine
end

