-- ==== Sys2Proof/Machine/Step.lean ====
section
/-! DEFINITION. The step of the machine: one port event (00_scope.md rule R5). -/

namespace Sys2Proof.Machine

/-- One step: the next port event. -/
def step (s : State) : Host.Outcome State Fault Refusal := nextEvent s

/-- `s` with the instruction whose bits are `w` as the one packet in Q and a service iteration as the next port event, so that the next step drains and runs
exactly it, then ticks and bursts (R177). -/
def State.withFetchWord (s : State) (nbits w : Nat) : State := withPacket (packetOfNat nbits w) s

end Sys2Proof.Machine
end

