-- ==== Sys2Proof/Laws/State.lean ====
section
/-! SUPPORT. What each replacement of a part of the state leaves in each part: one lemma per field per update, so that no proof unfolds a record
update. -/

namespace Sys2Proof.Machine

variable (s : State)

@[simp] theorem State.withLive_live (b : Bank) : (s.withLive b).live = b := rfl
@[simp] theorem State.withLive_scratch (b : Bank) : (s.withLive b).scratch = s.scratch := rfl
@[simp] theorem State.withLive_pattern (b : Bank) : (s.withLive b).pattern = s.pattern := rfl
@[simp] theorem State.withLive_seq (b : Bank) : (s.withLive b).seq = s.seq := rfl
@[simp] theorem State.withLive_g (b : Bank) : (s.withLive b).g = s.g := rfl
@[simp] theorem State.withLive_queue (b : Bank) : (s.withLive b).queue = s.queue := rfl
@[simp] theorem State.withLive_frameBuf (b : Bank) : (s.withLive b).frameBuf = s.frameBuf := rfl
@[simp] theorem State.withLive_params (b : Bank) : (s.withLive b).params = s.params := rfl
@[simp] theorem State.withLive_now (b : Bank) : (s.withLive b).now = s.now := rfl
@[simp] theorem State.withLive_env (b : Bank) : (s.withLive b).env = s.env := rfl
@[simp] theorem State.withLive_trace (b : Bank) : (s.withLive b).trace = s.trace := rfl

@[simp] theorem State.withScratch_live (b : Bank) : (s.withScratch b).live = s.live := rfl
@[simp] theorem State.withScratch_scratch (b : Bank) : (s.withScratch b).scratch = b := rfl
@[simp] theorem State.withScratch_pattern (b : Bank) : (s.withScratch b).pattern = s.pattern := rfl
@[simp] theorem State.withScratch_seq (b : Bank) : (s.withScratch b).seq = s.seq := rfl
@[simp] theorem State.withScratch_g (b : Bank) : (s.withScratch b).g = s.g := rfl
@[simp] theorem State.withScratch_queue (b : Bank) : (s.withScratch b).queue = s.queue := rfl
@[simp] theorem State.withScratch_frameBuf (b : Bank) : (s.withScratch b).frameBuf = s.frameBuf := rfl
@[simp] theorem State.withScratch_params (b : Bank) : (s.withScratch b).params = s.params := rfl
@[simp] theorem State.withScratch_now (b : Bank) : (s.withScratch b).now = s.now := rfl
@[simp] theorem State.withScratch_env (b : Bank) : (s.withScratch b).env = s.env := rfl
@[simp] theorem State.withScratch_trace (b : Bank) : (s.withScratch b).trace = s.trace := rfl

@[simp] theorem State.withPattern_live (p : PatternStore) : (s.withPattern p).live = s.live := rfl
@[simp] theorem State.withPattern_scratch (p : PatternStore) : (s.withPattern p).scratch = s.scratch := rfl
@[simp] theorem State.withPattern_pattern (p : PatternStore) : (s.withPattern p).pattern = p := rfl
@[simp] theorem State.withPattern_seq (p : PatternStore) : (s.withPattern p).seq = s.seq := rfl
@[simp] theorem State.withPattern_g (p : PatternStore) : (s.withPattern p).g = s.g := rfl
@[simp] theorem State.withPattern_queue (p : PatternStore) : (s.withPattern p).queue = s.queue := rfl
@[simp] theorem State.withPattern_frameBuf (p : PatternStore) : (s.withPattern p).frameBuf = s.frameBuf := rfl
@[simp] theorem State.withPattern_params (p : PatternStore) : (s.withPattern p).params = s.params := rfl
@[simp] theorem State.withPattern_now (p : PatternStore) : (s.withPattern p).now = s.now := rfl
@[simp] theorem State.withPattern_env (p : PatternStore) : (s.withPattern p).env = s.env := rfl
@[simp] theorem State.withPattern_trace (p : PatternStore) : (s.withPattern p).trace = s.trace := rfl

@[simp] theorem State.withSeq_live (q : Sequencer) : (s.withSeq q).live = s.live := rfl
@[simp] theorem State.withSeq_scratch (q : Sequencer) : (s.withSeq q).scratch = s.scratch := rfl
@[simp] theorem State.withSeq_pattern (q : Sequencer) : (s.withSeq q).pattern = s.pattern := rfl
@[simp] theorem State.withSeq_seq (q : Sequencer) : (s.withSeq q).seq = q := rfl
@[simp] theorem State.withSeq_g (q : Sequencer) : (s.withSeq q).g = s.g := rfl
@[simp] theorem State.withSeq_queue (q : Sequencer) : (s.withSeq q).queue = s.queue := rfl
@[simp] theorem State.withSeq_frameBuf (q : Sequencer) : (s.withSeq q).frameBuf = s.frameBuf := rfl
@[simp] theorem State.withSeq_params (q : Sequencer) : (s.withSeq q).params = s.params := rfl
@[simp] theorem State.withSeq_now (q : Sequencer) : (s.withSeq q).now = s.now := rfl
@[simp] theorem State.withSeq_env (q : Sequencer) : (s.withSeq q).env = s.env := rfl
@[simp] theorem State.withSeq_trace (q : Sequencer) : (s.withSeq q).trace = s.trace := rfl

@[simp] theorem State.withG_live (g : Globals) : (s.withG g).live = s.live := rfl
@[simp] theorem State.withG_scratch (g : Globals) : (s.withG g).scratch = s.scratch := rfl
@[simp] theorem State.withG_pattern (g : Globals) : (s.withG g).pattern = s.pattern := rfl
@[simp] theorem State.withG_seq (g : Globals) : (s.withG g).seq = s.seq := rfl
@[simp] theorem State.withG_g (g : Globals) : (s.withG g).g = g := rfl
@[simp] theorem State.withG_queue (g : Globals) : (s.withG g).queue = s.queue := rfl
@[simp] theorem State.withG_frameBuf (g : Globals) : (s.withG g).frameBuf = s.frameBuf := rfl
@[simp] theorem State.withG_params (g : Globals) : (s.withG g).params = s.params := rfl
@[simp] theorem State.withG_now (g : Globals) : (s.withG g).now = s.now := rfl
@[simp] theorem State.withG_env (g : Globals) : (s.withG g).env = s.env := rfl
@[simp] theorem State.withG_trace (g : Globals) : (s.withG g).trace = s.trace := rfl

@[simp] theorem State.withQueue_live (q : List Packet) : (s.withQueue q).live = s.live := rfl
@[simp] theorem State.withQueue_scratch (q : List Packet) : (s.withQueue q).scratch = s.scratch := rfl
@[simp] theorem State.withQueue_pattern (q : List Packet) : (s.withQueue q).pattern = s.pattern := rfl
@[simp] theorem State.withQueue_seq (q : List Packet) : (s.withQueue q).seq = s.seq := rfl
@[simp] theorem State.withQueue_g (q : List Packet) : (s.withQueue q).g = s.g := rfl
@[simp] theorem State.withQueue_queue (q : List Packet) : (s.withQueue q).queue = q := rfl
@[simp] theorem State.withQueue_frameBuf (q : List Packet) : (s.withQueue q).frameBuf = s.frameBuf := rfl
@[simp] theorem State.withQueue_params (q : List Packet) : (s.withQueue q).params = s.params := rfl
@[simp] theorem State.withQueue_now (q : List Packet) : (s.withQueue q).now = s.now := rfl
@[simp] theorem State.withQueue_env (q : List Packet) : (s.withQueue q).env = s.env := rfl
@[simp] theorem State.withQueue_trace (q : List Packet) : (s.withQueue q).trace = s.trace := rfl

@[simp] theorem State.withFrameBuf_live (b : List Frame) : (s.withFrameBuf b).live = s.live := rfl
@[simp] theorem State.withFrameBuf_scratch (b : List Frame) : (s.withFrameBuf b).scratch = s.scratch := rfl
@[simp] theorem State.withFrameBuf_pattern (b : List Frame) : (s.withFrameBuf b).pattern = s.pattern := rfl
@[simp] theorem State.withFrameBuf_seq (b : List Frame) : (s.withFrameBuf b).seq = s.seq := rfl
@[simp] theorem State.withFrameBuf_g (b : List Frame) : (s.withFrameBuf b).g = s.g := rfl
@[simp] theorem State.withFrameBuf_queue (b : List Frame) : (s.withFrameBuf b).queue = s.queue := rfl
@[simp] theorem State.withFrameBuf_frameBuf (b : List Frame) : (s.withFrameBuf b).frameBuf = b := rfl
@[simp] theorem State.withFrameBuf_params (b : List Frame) : (s.withFrameBuf b).params = s.params := rfl
@[simp] theorem State.withFrameBuf_now (b : List Frame) : (s.withFrameBuf b).now = s.now := rfl
@[simp] theorem State.withFrameBuf_env (b : List Frame) : (s.withFrameBuf b).env = s.env := rfl
@[simp] theorem State.withFrameBuf_trace (b : List Frame) : (s.withFrameBuf b).trace = s.trace := rfl

@[simp] theorem State.withNow_live (t : Word) : (s.withNow t).live = s.live := rfl
@[simp] theorem State.withNow_scratch (t : Word) : (s.withNow t).scratch = s.scratch := rfl
@[simp] theorem State.withNow_pattern (t : Word) : (s.withNow t).pattern = s.pattern := rfl
@[simp] theorem State.withNow_seq (t : Word) : (s.withNow t).seq = s.seq := rfl
@[simp] theorem State.withNow_g (t : Word) : (s.withNow t).g = s.g := rfl
@[simp] theorem State.withNow_queue (t : Word) : (s.withNow t).queue = s.queue := rfl
@[simp] theorem State.withNow_frameBuf (t : Word) : (s.withNow t).frameBuf = s.frameBuf := rfl
@[simp] theorem State.withNow_params (t : Word) : (s.withNow t).params = s.params := rfl
@[simp] theorem State.withNow_now (t : Word) : (s.withNow t).now = t := rfl
@[simp] theorem State.withNow_env (t : Word) : (s.withNow t).env = s.env := rfl
@[simp] theorem State.withNow_trace (t : Word) : (s.withNow t).trace = s.trace := rfl

@[simp] theorem State.withEnv_live (e : Env) : (s.withEnv e).live = s.live := rfl
@[simp] theorem State.withEnv_scratch (e : Env) : (s.withEnv e).scratch = s.scratch := rfl
@[simp] theorem State.withEnv_pattern (e : Env) : (s.withEnv e).pattern = s.pattern := rfl
@[simp] theorem State.withEnv_seq (e : Env) : (s.withEnv e).seq = s.seq := rfl
@[simp] theorem State.withEnv_g (e : Env) : (s.withEnv e).g = s.g := rfl
@[simp] theorem State.withEnv_queue (e : Env) : (s.withEnv e).queue = s.queue := rfl
@[simp] theorem State.withEnv_frameBuf (e : Env) : (s.withEnv e).frameBuf = s.frameBuf := rfl
@[simp] theorem State.withEnv_params (e : Env) : (s.withEnv e).params = s.params := rfl
@[simp] theorem State.withEnv_now (e : Env) : (s.withEnv e).now = s.now := rfl
@[simp] theorem State.withEnv_env (e : Env) : (s.withEnv e).env = e := rfl
@[simp] theorem State.withEnv_trace (e : Env) : (s.withEnv e).trace = s.trace := rfl

@[simp] theorem State.emit_live (os : List PortOutput) : (s.emit os).live = s.live := rfl
@[simp] theorem State.emit_scratch (os : List PortOutput) : (s.emit os).scratch = s.scratch := rfl
@[simp] theorem State.emit_pattern (os : List PortOutput) : (s.emit os).pattern = s.pattern := rfl
@[simp] theorem State.emit_seq (os : List PortOutput) : (s.emit os).seq = s.seq := rfl
@[simp] theorem State.emit_g (os : List PortOutput) : (s.emit os).g = s.g := rfl
@[simp] theorem State.emit_queue (os : List PortOutput) : (s.emit os).queue = s.queue := rfl
@[simp] theorem State.emit_frameBuf (os : List PortOutput) : (s.emit os).frameBuf = s.frameBuf := rfl
@[simp] theorem State.emit_params (os : List PortOutput) : (s.emit os).params = s.params := rfl
@[simp] theorem State.emit_now (os : List PortOutput) : (s.emit os).now = s.now := rfl
@[simp] theorem State.emit_env (os : List PortOutput) : (s.emit os).env = s.env := rfl
@[simp] theorem State.emit_trace (os : List PortOutput) : (s.emit os).trace = s.trace ++ os := rfl

/-! ### Outcomes that chain -/

@[simp] theorem andThen_next (f : State → Result) : andThen (.next s) f = f s := rfl
@[simp] theorem andThen_fault (r : Fault) (f : State → Result) : andThen (.fault r) f = .fault r := rfl
@[simp] theorem andThen_refused (r : Refusal) (f : State → Result) : andThen (.refused r) f = .refused r := rfl
@[simp] theorem ofOp_ok : ofOp (.ok s) = .next s := rfl
@[simp] theorem ofOp_error (r : Fault) : ofOp (.error r) = .fault r := rfl
@[simp] theorem opThen_ok {α : Type} (a : α) (f : α → Result) : opThen (.ok a) f = f a := rfl
@[simp] theorem opThen_error {α : Type} (r : Fault) (f : α → Result) : opThen (.error r : Op α) f = .fault r := rfl
@[simp] theorem drop_eq : drop s = .next s := rfl

@[simp] theorem op_bind_ok {α β : Type} (a : α) (f : α → Op β) : ((Except.ok a : Op α) >>= f) = f a := rfl
@[simp] theorem op_bind_error {α β : Type} (r : Fault) (f : α → Op β) : ((Except.error r : Op α) >>= f) = .error r := rfl

/-- A sequence of operations succeeds exactly when each does. -/
theorem op_bind_eq_ok {α β : Type} {x : Op α} {f : α → Op β} {b : β} :
    x >>= f = .ok b ↔ ∃ a, x = .ok a ∧ f a = .ok b := by
  cases x <;> simp

/-- A chain answers a next state exactly when each link does. -/
theorem andThen_eq_next {o : Result} {f : State → Result} {t : State} :
    andThen o f = .next t ↔ ∃ u, o = .next u ∧ f u = .next t := by
  cases o <;> simp [andThen]

/-- Going on after an operation answers a next state exactly when both parts succeed. -/
theorem opThen_eq_next {α : Type} {x : Op α} {f : α → Result} {t : State} :
    opThen x f = .next t ↔ ∃ a, x = .ok a ∧ f a = .next t := by
  cases x <;> simp [opThen]

/-- A chain of two is a chain of one over the composed rest. -/
theorem andThen_assoc (o : Result) (f g : State → Result) :
    andThen (andThen o f) g = andThen o fun u => andThen (f u) g := by
  cases o <;> rfl

/-- An internal operation answers a next state exactly when it gives a state. -/
theorem ofOp_eq_next {x : Op State} {t : State} : ofOp x = .next t ↔ x = .ok t := by
  cases x <;> simp [ofOp]

end Sys2Proof.Machine
end

