-- ==== Sys2Proof/Laws/Access.lean ====
section
/-! SUPPORT. What the events of the command port and of the readback port can do (44_commands.md rule R156, 10_state.md rule R39). -/

namespace Sys2Proof.Machine

/-- What CmdAccept can do (R156): nothing, or move the oldest packet offered to the tail of Q. -/
theorem cmdAccept_cases {s t : State} (h : cmdAccept s = .next t) :
    t = s ∨ ∃ p ps, s.env.offered = p :: ps ∧ s.queue.length < s.params.queueDepth ∧ p.wf = true ∧
      t = (s.withQueue (s.queue ++ [p])).withEnv { s.env with offered := ps } := by
  unfold cmdAccept at h
  split at h
  · exact .inl (by simpa using h.symm)
  · next p ps hp =>
    split at h
    · next hr =>
      split at h
      · next hw => exact .inr ⟨p, ps, hp, by simpa [cmdReady] using hr, hw, by simpa using h.symm⟩
      · cases h
    · exact .inl (by simpa using h.symm)

/-- What a side event can do: a CmdAccept, or a readback that only leaves its data at the port (R39). -/
theorem sideEvent_cases {e : SideEvent} {s t : State} (h : sideEvent e s = .next t) :
    cmdAccept s = .next t ∨ ∃ addr, t = s.emit [.rbData addr (readback s addr)] := by
  cases e with
  | cmdAccept => exact .inl h
  | readback addr => exact .inr ⟨addr, by simpa [sideEvent, readbackEvent] using h.symm⟩

/-- What a sequence of side events can do: packets offered move to the tail of Q, in order, and readback data leaves at the port. -/
theorem sideEvents_cases {es : List SideEvent} {s t : State} (h : sideEvents es s = .next t) :
    ∃ (taken : List Packet) (rb : List PortOutput),
      t = { s with queue := s.queue ++ taken, env := { s.env with offered := t.env.offered }, trace := s.trace ++ rb } ∧
      s.env.offered = taken ++ t.env.offered ∧ (∀ p ∈ taken, p.wf = true) ∧ (∀ o ∈ rb, ∃ a d, o = .rbData a d) ∧
      (s.queue.length ≤ s.params.queueDepth → t.queue.length ≤ s.params.queueDepth) := by
  induction es generalizing s with
  | nil =>
    simp only [sideEvents, Host.Outcome.next.injEq] at h
    subst h
    exact ⟨[], [], by simp, by simp, by simp, by simp, id⟩
  | cons e es ih =>
    obtain ⟨u, hu, h⟩ := andThen_eq_next.1 h
    obtain ⟨taken, rb, h1, h2, h3, h4, h5⟩ := ih h
    rcases sideEvent_cases hu with hu | ⟨a, rfl⟩
    · rcases cmdAccept_cases hu with rfl | ⟨p, ps, ho, hr, hw, rfl⟩
      · exact ⟨taken, rb, h1, h2, h3, h4, h5⟩
      · refine ⟨p :: taken, rb, ?_, ?_, ?_, h4, ?_⟩
        · simpa [State.withEnv, State.withQueue] using h1
        · rw [ho, List.cons_append]
          exact congrArg _ h2
        · intro q hq
          rcases List.mem_cons.1 hq with rfl | hq
          · exact hw
          · exact h3 q hq
        · intro _
          exact h5 (by simp; omega)
    · refine ⟨taken, .rbData a (readback s a) :: rb, ?_, h2, h3, ?_, h5⟩
      · simpa [State.emit] using h1
      · intro o ho
        rcases List.mem_cons.1 ho with rfl | ho
        · exact ⟨_, _, rfl⟩
        · exact h4 o ho

/-- Side events answer a next state when every packet offered is a packet of R59. -/
theorem sideEvents_total {es : List SideEvent} {s : State} (h : ∀ p ∈ s.env.offered, p.wf = true) : ∃ t, sideEvents es s = .next t := by
  induction es generalizing s with
  | nil => exact ⟨s, rfl⟩
  | cons e es ih =>
    have he : ∃ u, sideEvent e s = .next u ∧ ∀ p ∈ u.env.offered, p.wf = true := by
      cases e with
      | readback a => exact ⟨_, rfl, h⟩
      | cmdAccept =>
        simp only [sideEvent, cmdAccept]
        split
        · exact ⟨s, rfl, h⟩
        · next p ps ho =>
          rw [if_pos (h p (by simp [ho]))]
          split
          · exact ⟨_, rfl, fun q hq => h q (by rw [ho]; exact List.mem_cons_of_mem _ hq)⟩
          · exact ⟨s, rfl, h⟩
    obtain ⟨u, hu, hw⟩ := he
    obtain ⟨t, ht⟩ := ih hw
    exact ⟨t, by rw [sideEvents, hu]; exact ht⟩

/-- What side events read of a state: the mapped fields, Q with its depth, the packets offered. -/
structure SideAgree (s x : State) : Prop where
  live : x.live = s.live
  pattern : x.pattern = s.pattern
  seq : x.seq = s.seq
  g : x.g = s.g
  queue : x.queue = s.queue
  depth : x.params.queueDepth = s.params.queueDepth
  offered : x.env.offered = s.env.offered

/-- A readback depends on the mapped fields alone: not on the scratch bank, the frame buffer or what has left the block (R38, R39). -/
theorem SideAgree.readback {s x : State} (h : SideAgree s x) (a : BitVec 12) : readback x a = Machine.readback s a := by
  unfold Machine.readback readbackNat controlField
  rw [h.live, h.pattern, h.seq, h.g, h.queue]

/-- Side events do the same, and leave the same data at the port, in two states that agree on what they read. -/
theorem sideEvents_congr {es : List SideEvent} {s x t : State} (ha : SideAgree s x) (h : sideEvents es s = .next t) :
    ∃ rb y, t.trace = s.trace ++ rb ∧ sideEvents es x = .next y ∧ SideAgree t y ∧
      y = { x with queue := y.queue, env := { x.env with offered := y.env.offered }, trace := x.trace ++ rb } := by
  induction es generalizing s x with
  | nil =>
    simp only [sideEvents, Host.Outcome.next.injEq] at h
    subst h
    exact ⟨[], x, by simp, rfl, ha, by simp⟩
  | cons e es ih =>
    obtain ⟨u, hu, h⟩ := andThen_eq_next.1 h
    cases e with
    | readback a =>
      simp only [sideEvent, readbackEvent, Host.Outcome.next.injEq] at hu
      subst hu
      have hb : SideAgree (s.emit [.rbData a (Machine.readback s a)]) (x.emit [.rbData a (Machine.readback s a)]) :=
        ⟨ha.live, ha.pattern, ha.seq, ha.g, ha.queue, ha.depth, ha.offered⟩
      obtain ⟨rb, y, h1, h2, h3, h4⟩ := ih hb h
      refine ⟨.rbData a (Machine.readback s a) :: rb, y, by simpa using h1, ?_, h3, by simpa [State.emit] using h4⟩
      simp only [sideEvents, sideEvent, readbackEvent, ha.readback a]
      exact h2
    | cmdAccept =>
      simp only [sideEvents, sideEvent, cmdAccept, cmdReady] at hu ⊢
      rw [ha.offered, ha.queue, ha.depth]
      split at hu
      · cases hu
        exact ih ha h
      · next p ps ho =>
        split at hu
        · next hr =>
          split at hu
          · next hw =>
            cases hu
            rw [if_pos hr, if_pos hw]
            have hb : SideAgree ((s.withQueue (s.queue ++ [p])).withEnv { s.env with offered := ps })
                ((x.withQueue (s.queue ++ [p])).withEnv { x.env with offered := ps }) :=
              ⟨ha.live, ha.pattern, ha.seq, ha.g, rfl, ha.depth, rfl⟩
            obtain ⟨rb, y, h1, h2, h3, h4⟩ := ih hb h
            exact ⟨rb, y, h1, h2, h3, h4⟩
          · cases hu
        · next hr =>
          cases hu
          rw [if_neg hr]
          exact ih ha h

end Sys2Proof.Machine
end

