-- ==== Sys2Proof/Safety.lean ====
section
/-! DEFINITION. What a safe run is: the invariant of 10_state.md rules R40 and R41, with what the rules say of Q (R35, R59), of the frame buffer (R135)
and of the parameters (R8); and the absence of FAULT (R163). -/

namespace Sys2Proof.Machine

/-- R41 of one channel record. -/
abbrev Channel.Ok (ch : Channel) : Prop :=
  ch.wave.toNat ≤ 2 ∧ ch.envLevel.toNat ≤ 2 ^ 24 ∧
  1 ≤ ch.envDecay.toNat ∧ ch.envDecay.toNat ≤ 2 ^ 24 ∧
  1 ≤ ch.pitchMult.toNat ∧ ch.pitchMult.toNat ≤ 2 ^ 24 ∧
  (ch.active = true → ch.isNoise = true → ch.lfsr ≠ 0)

/-- R40: the least FREQ of an active channel `c` without noise, 1 Hz on a melodic channel and 30 Hz on another. -/
abbrev freqFloor (c : Nat) : Nat := if c < 2 then 2 ^ 16 else 30 * 2 ^ 16

/-- R40 of one channel record. -/
abbrev Channel.FreqOk (c : Nat) (ch : Channel) : Prop :=
  ch.active = true → ch.isNoise = false → freqFloor c ≤ ch.freq.toNat

/-- R40 and R41 of a bank. -/
abbrev Bank.Ok (b : Bank) : Prop := ∀ c : Fin 5, b[c].Ok ∧ b[c].FreqOk c

/-- R41 of the PatternStore: every WAVE field is in [0, 2]. -/
abbrev PatternStore.Ok (p : PatternStore) : Prop := ∀ (t : Fin 2) (s : Fin 16), p.mel[t][s].wave.toNat ≤ 2

/-- R41 of the sequencer: BPM in [40, 240] (CURRENT_STEP is four bits wide). -/
abbrev Sequencer.Ok (q : Sequencer) : Prop := Config.bpmMin ≤ q.bpm.toNat ∧ q.bpm.toNat ≤ Config.bpmMax

/-- R41 of the globals (VOLUME is fifteen bits wide, so at most VOLUME_MAX). -/
abbrev Globals.Ok (g : Globals) : Prop := g.liveWave.toNat ≤ 2 ∧ g.exportStatus ≠ 3

/-- The ranges of R8. -/
abbrev Params.Ok (p : Params) : Prop :=
  1 ≤ p.sampleRate ∧ p.sampleRate ≤ 192000 ∧ 1 ≤ p.burstFrames ∧ 1 ≤ p.queueDepth ∧
  1 ≤ p.melodicDecay.toNat ∧ p.melodicDecay.toNat ≤ 2 ^ 24 ∧ 1 ≤ p.chunkFrames

/-- The invariant of every reachable state. -/
structure State.Inv (s : State) : Prop where
  live : s.live.Ok
  scratch : s.scratch.Ok
  pattern : s.pattern.Ok
  seq : s.seq.Ok
  g : s.g.Ok
  params : s.params.Ok
  queueWf : ∀ p ∈ s.queue, p.wf = true
  queueLen : s.queue.length ≤ s.params.queueDepth
  offeredWf : ∀ p ∈ s.env.offered, p.wf = true
  frameBuf : s.frameBuf.length < s.params.chunkFrames

/-- No fault of the block is raised in this step (R163). -/
def State.Safe (s : State) : Prop := ∀ r, step s ≠ .fault r

end Sys2Proof.Machine
end

