-- ==== Sys2Proof/Laws/Ops.lean ====
section
/-! SUPPORT. What each named operation can do: the operand clamps (R68), the triggers and the release of a bank (R73 to R77), the cells of the
PatternStore (R46, R105). -/

namespace Sys2Proof.Machine

/-! ### Operands -/

/-- A clamped argument lies in its range (R68). -/
theorem clampArg_mem (w : Word) {lo hi : Nat} (h : lo ≤ hi) : lo ≤ clampArg w lo hi ∧ clampArg w lo hi ≤ hi := by
  unfold clampArg clamp; omega

theorem frequencyArg_le (w : Word) : frequencyArg w ≤ 65535 := (clampArg_mem w (by decide)).2
theorem channelArg_le (w : Word) : channelArg w ≤ 1 := (clampArg_mem w (by decide)).2
theorem waveformArg_le (w : Word) : waveformArg w ≤ 2 := (clampArg_mem w (by decide)).2
theorem volumeArg_le (w : Word) : volumeArg w ≤ 32767 := (clampArg_mem w (by decide)).2
theorem melodicTrackArg_le (w : Word) : melodicTrackArg w ≤ 1 := (clampArg_mem w (by decide)).2
theorem drumTrackArg_le (w : Word) : drumTrackArg w ≤ 2 := (clampArg_mem w (by decide)).2
theorem stepArg_le (w : Word) : stepArg w ≤ 15 := (clampArg_mem w (by decide)).2
theorem hitArg_le (w : Word) : hitArg w ≤ 1 := (clampArg_mem w (by decide)).2
theorem bpmArg_mem (w : Word) : 40 ≤ bpmArg w ∧ bpmArg w ≤ 240 := clampArg_mem w (by decide)
theorem loopsArg_le (w : Word) : loopsArg w ≤ 255 := (clampArg_mem w (by decide)).2

theorem optChannelArg_lt (args : List Word) (k : Nat) : optChannelArg args k < 2 := by
  unfold optChannelArg
  split
  · exact Nat.lt_succ_of_le (channelArg_le _)
  · decide

/-! ### Banks -/

/-- Two banks with the same five records are the same bank. -/
theorem Bank.ext_five {b b' : Bank} (h0 : b[0] = b'[0]) (h1 : b[1] = b'[1]) (h2 : b[2] = b'[2]) (h3 : b[3] = b'[3]) (h4 : b[4] = b'[4]) :
    b = b' := by
  apply Vector.ext
  intro i hi
  interval_cases i <;> assumption

/-- Writing a record back changes nothing. -/
theorem Bank.set_self (b : Bank) {c : Nat} (hc : c < 5) : Vector.set b c b[c] = b := by
  apply Vector.ext
  intro i hi
  rw [Vector.getElem_set]
  split
  · next e => subst e; rfl
  · rfl

/-- Writing one good record keeps a bank good. -/
theorem Bank.Ok.set {b : Bank} (hb : b.Ok) {c : Nat} (hc : c < 5) {ch : Channel} (h : ch.Ok) (hf : ch.FreqOk c) :
    Bank.Ok (Vector.set b c ch hc) := by
  intro i
  simp only [Fin.getElem_fin, Vector.getElem_set]
  split
  · next e => subst e; exact ⟨h, hf⟩
  · exact hb i

/-- The record of a bank at a known index. -/
theorem Bank.Ok.get {b : Bank} (hb : b.Ok) {c : Nat} (hc : c < 5) : b[c].Ok ∧ b[c].FreqOk c := hb ⟨c, hc⟩

theorem trigger_eq {decay : Q24} {b : Bank} {c f w : Nat} (hc : c < 2) (hf : 1 ≤ f ∧ f ≤ 65535) (hw : w ≤ 2) :
    trigger decay b c f w = .ok (b.set c (b[c].triggered f w decay)) := by
  simp [trigger, hc, hf, hw]

theorem release_eq {b : Bank} {c : Nat} (hc : c < 2) : release b c = .ok (b.set c b[c].released) := by
  simp [release, hc]

/-- What a melodic trigger can do: leave its one record triggered (R73). -/
theorem trigger_cases {decay : Q24} {b b' : Bank} {c f w : Nat} (h : trigger decay b c f w = .ok b') :
    ∃ hc : c < 2, b' = b.set c (b[c].triggered f w decay) := by
  unfold trigger at h
  split at h
  · next hc =>
    split at h
    · exact ⟨hc, by simpa using h.symm⟩
    · cases h
  · cases h

/-- What a release can do: leave its one record released (R77). -/
theorem release_cases {b b' : Bank} {c : Nat} (h : release b c = .ok b') : ∃ hc : c < 2, b' = b.set c b[c].released := by
  unfold release at h
  split at h
  · next hc => exact ⟨hc, by simpa using h.symm⟩
  · cases h

theorem releaseMelodic_eq (b : Bank) :
    releaseMelodic b = .ok ((b.set 0 b[0].released).set 1 b[1].released) := by
  simp [releaseMelodic, release_eq]

/-- The triggered frequency is exact: f * 2^16 fits in 32 bits for f up to 65535 (R93). -/
theorem freq_toNat {f : Nat} (hf : f ≤ 65535) : (BitVec.ofNat 32 (f * 2 ^ 16)).toNat = f * 2 ^ 16 := by
  rw [BitVec.toNat_ofNat]; omega

theorem Channel.triggered_ok {ch : Channel} {f w c : Nat} {decay : Q24} (hf : 1 ≤ f ∧ f ≤ 65535) (hw : w ≤ 2) (hc : c < 2)
    (hd : 1 ≤ decay.toNat ∧ decay.toNat ≤ 2 ^ 24) : (ch.triggered f w decay).Ok ∧ (ch.triggered f w decay).FreqOk c := by
  refine ⟨⟨?_, by simp [triggered], hd.1, hd.2, by simp [triggered], by simp [triggered], by simp [triggered]⟩, ?_⟩
  · show (BitVec.ofNat 2 w).toNat ≤ 2
    rw [BitVec.toNat_ofNat]; omega
  · intro _ _
    show freqFloor c ≤ (BitVec.ofNat 32 (f * 2 ^ 16)).toNat
    rw [freq_toNat hf.2]
    simp only [freqFloor, hc, if_true]; omega

theorem Channel.released_ok {ch : Channel} {c : Nat} (h : ch.Ok) : ch.released.Ok ∧ ch.released.FreqOk c := by
  obtain ⟨h1, h2, h3, h4, h5, h6, -⟩ := h
  exact ⟨⟨h1, by simp [released], h3, h4, h5, h6, by simp [released]⟩, by simp [released]⟩

theorem Channel.kicked_ok (ch : Channel) : ch.kicked.Ok ∧ ch.kicked.FreqOk 2 := by
  refine ⟨⟨?_, ?_, ?_, ?_, ?_, ?_, ?_⟩, ?_⟩ <;> simp [kicked, freqFloor, Config.kickStartHz]

theorem Channel.noised_ok {ch : Channel} (h : ch.Ok) {decay : Q24} {seed : BitVec 15} {c : Nat}
    (hd : 1 ≤ decay.toNat ∧ decay.toNat ≤ 2 ^ 24) (hs : seed ≠ 0) :
    (ch.noised decay seed).Ok ∧ (ch.noised decay seed).FreqOk c :=
  ⟨⟨h.1, by simp [noised], hd.1, hd.2, by simp [noised], by simp [noised], fun _ _ => hs⟩, by simp [noised]⟩

/-- Releasing both melodic channels keeps a bank good. -/
theorem Bank.Ok.releaseMelodic {b : Bank} (hb : b.Ok) :
    Bank.Ok ((Vector.set b 0 b[0].released).set 1 b[1].released) :=
  have h0 := Channel.released_ok (c := 0) (hb.get (c := 0) (by decide)).1
  have h1 := Channel.released_ok (c := 1) (hb.get (c := 1) (by decide)).1
  (hb.set (by decide) h0.1 h0.2).set (by decide) h1.1 h1.2

/-! ### PatternStore -/

theorem memWriteMel_eq {p : PatternStore} {t s : Nat} {cell : MelCell} (ht : t < 2) (hs : s < 16) :
    memWriteMel p t s cell = .ok { p with mel := p.mel.set t (p.mel[t].set s cell) } := by
  simp [memWriteMel, ht, hs]

theorem memWriteDrum_eq {p : PatternStore} {d s : Nat} {hit : Bool} (hd : d < 3) (hs : s < 16) :
    memWriteDrum p d s hit = .ok { p with drum := p.drum.set d (p.drum[d].set s hit) } := by
  simp [memWriteDrum, hd, hs]

theorem memReadMel_eq {p : PatternStore} {t s : Nat} (ht : t < 2) (hs : s < 16) : memReadMel p t s = .ok p.mel[t][s] := by
  simp [memReadMel, ht, hs]

theorem memReadDrum_eq {p : PatternStore} {d s : Nat} (hd : d < 3) (hs : s < 16) : memReadDrum p d s = .ok p.drum[d][s] := by
  simp [memReadDrum, hd, hs]

/-- A melodic cell after a write of a melodic cell (R105). -/
theorem getElem_setMel (m : Vector (Vector MelCell 16) 2) {t s t' s' : Nat} (ht : t < 2) (hs : s < 16) (ht' : t' < 2) (hs' : s' < 16)
    (cell : MelCell) :
    (m.set t (m[t].set s cell))[t'][s'] = if t = t' ∧ s = s' then cell else m[t'][s'] := by
  rw [Vector.getElem_set]
  by_cases h : t = t'
  · subst h; simp [Vector.getElem_set]
  · simp [h]

/-- A drum cell after a write of a drum cell. -/
theorem getElem_setDrum (m : Vector (Vector Bool 16) 3) {d s d' s' : Nat} (hd : d < 3) (hs : s < 16) (hd' : d' < 3) (hs' : s' < 16)
    (hit : Bool) :
    (m.set d (m[d].set s hit))[d'][s'] = if d = d' ∧ s = s' then hit else m[d'][s'] := by
  rw [Vector.getElem_set]
  by_cases h : d = d'
  · subst h; simp [Vector.getElem_set]
  · simp [h]

/-- Writing a cell with a legal waveform keeps the PatternStore good (R41). -/
theorem PatternStore.Ok.setMel {p : PatternStore} (hp : p.Ok) {t s : Nat} (ht : t < 2) (hs : s < 16) {cell : MelCell}
    (hw : cell.wave.toNat ≤ 2) : PatternStore.Ok { p with mel := p.mel.set t (p.mel[t].set s cell) } := by
  intro t' s'
  simp only [Fin.getElem_fin, getElem_setMel p.mel ht hs t'.isLt s'.isLt]
  split
  · exact hw
  · exact hp t' s'

theorem PatternStore.Ok.get {p : PatternStore} (hp : p.Ok) {t s : Nat} (ht : t < 2) (hs : s < 16) : p.mel[t][s].wave.toNat ≤ 2 :=
  hp ⟨t, ht⟩ ⟨s, hs⟩

end Sys2Proof.Machine
end

