-- ==== Sys2Proof/Laws/Pattern.lean ====
section
/-! SUPPORT. What triggerStep (41_pattern_dispatch.md rule R104), the PatternStore writes and the sequencer's operations can do. -/

namespace Sys2Proof.Machine

/-! ### PatternStore writes -/

theorem setMelodicStep_eq {p : PatternStore} {t s f w : Nat} (ht : t < 2) (hs : s < 16) (hf : f ≤ 65535) (hw : w ≤ 2) :
    setMelodicStep p t s f w = .ok { p with mel := p.mel.set t (p.mel[t].set s ⟨BitVec.ofNat 16 f, BitVec.ofNat 2 w⟩) } := by
  simp [setMelodicStep, ht, hs, hf, hw, memWriteMel_eq]

theorem setDrumStep_eq {p : PatternStore} {d s h : Nat} (hd : d < 3) (hs : s < 16) (hh : h ≤ 1) :
    setDrumStep p d s h = .ok { p with drum := p.drum.set d (p.drum[d].set s (hitFlag h)) } := by
  simp [setDrumStep, hd, hs, hh, memWriteDrum_eq]

theorem clearPattern_mel {t s : Nat} (ht : t < 2) (hs : s < 16) : clearPattern.mel[t][s] = ⟨0, 0⟩ := by
  simp [clearPattern]

theorem clearPattern_drum {d s : Nat} (hd : d < 3) (hs : s < 16) : clearPattern.drum[d][s] = false := by
  simp [clearPattern]

theorem clearPattern_ok : clearPattern.Ok := by
  intro t s
  simp only [Fin.getElem_fin, clearPattern_mel t.isLt s.isLt]
  decide

/-! ### triggerStep -/

/-- The record of melodic channel `t` after triggerStep (R104). -/
def steppedMelodic (decay : Q24) (cell : MelCell) (ch : Channel) : Channel :=
  if cell.freqHz.toNat ≠ 0 then ch.triggered cell.freqHz.toNat cell.wave.toNat decay else ch.released

/-- The record of percussive channel `2 + d` after triggerStep (R104), `fired` being what its preset leaves. -/
def steppedDrum (hit : Bool) (fired ch : Channel) : Channel := if hit then fired else ch

theorem triggerMelodicTrack_eq {decay : Q24} {p : PatternStore} (hp : p.Ok) {s : Nat} (hs : s < 16) {b : Bank} {t : Nat} (ht : t < 2) :
    triggerMelodicTrack decay p s b t = .ok (b.set t (steppedMelodic decay p.mel[t][s] b[t])) := by
  have hw := hp.get ht hs
  have hf : p.mel[t][s].freqHz.toNat ≤ 65535 := by have := p.mel[t][s].freqHz.isLt; omega
  simp only [triggerMelodicTrack, memReadMel_eq ht hs, op_bind_ok, steppedMelodic]
  split
  · next h => exact trigger_eq ht ⟨by omega, hf⟩ hw
  · exact release_eq ht

theorem triggerDrumTrack_zero {p : PatternStore} {s : Nat} (hs : s < 16) (b : Bank) :
    triggerDrumTrack p s b 0 = .ok (b.set 2 (steppedDrum p.drum[0][s] b[2].kicked b[2])) := by
  simp only [triggerDrumTrack, memReadDrum_eq (by decide : 0 < 3) hs, op_bind_ok, steppedDrum]
  split
  · rfl
  · rw [Bank.set_self]

theorem triggerDrumTrack_one {p : PatternStore} {s : Nat} (hs : s < 16) (b : Bank) :
    triggerDrumTrack p s b 1 =
      .ok (b.set 3 (steppedDrum p.drum[1][s] (b[3].noised Config.snareDecay Config.snareSeed) b[3])) := by
  simp only [triggerDrumTrack, memReadDrum_eq (by decide : 1 < 3) hs, op_bind_ok, steppedDrum]
  split
  · rfl
  · rw [Bank.set_self]

theorem triggerDrumTrack_two {p : PatternStore} {s : Nat} (hs : s < 16) (b : Bank) :
    triggerDrumTrack p s b 2 =
      .ok (b.set 4 (steppedDrum p.drum[2][s] (b[4].noised Config.hatDecay Config.hatSeed) b[4])) := by
  simp only [triggerDrumTrack, memReadDrum_eq (by decide : 2 < 3) hs, op_bind_ok, steppedDrum]
  split
  · rfl
  · rw [Bank.set_self]

/-- triggerStep of a legal pattern answers the five records of R104, each channel from its own track alone (R106). -/
theorem triggerStep_eq {decay : Q24} {p : PatternStore} (hp : p.Ok) {s : Nat} (hs : s < 16) (b : Bank) :
    triggerStep decay p b s = .ok #v[
      steppedMelodic decay p.mel[0][s] b[0],
      steppedMelodic decay p.mel[1][s] b[1],
      steppedDrum p.drum[0][s] b[2].kicked b[2],
      steppedDrum p.drum[1][s] (b[3].noised Config.snareDecay Config.snareSeed) b[3],
      steppedDrum p.drum[2][s] (b[4].noised Config.hatDecay Config.hatSeed) b[4]] := by
  rw [triggerStep, if_pos hs, triggerMelodicTrack_eq hp hs (by decide : 0 < 2), op_bind_ok,
    triggerMelodicTrack_eq hp hs (by decide : 1 < 2), op_bind_ok, triggerDrumTrack_zero hs, op_bind_ok, triggerDrumTrack_one hs,
    op_bind_ok, triggerDrumTrack_two hs]
  congr 1
  apply Bank.ext_five <;> simp only [Vector.getElem_set] <;> rfl

theorem steppedMelodic_ok {decay : Q24} (hd : 1 ≤ decay.toNat ∧ decay.toNat ≤ 2 ^ 24) {cell : MelCell} (hw : cell.wave.toNat ≤ 2)
    {ch : Channel} (h : ch.Ok) {c : Nat} (hc : c < 2) :
    (steppedMelodic decay cell ch).Ok ∧ (steppedMelodic decay cell ch).FreqOk c := by
  have := cell.freqHz.isLt
  unfold steppedMelodic
  split
  · exact Channel.triggered_ok ⟨by omega, by omega⟩ hw hc hd
  · exact Channel.released_ok h

theorem steppedDrum_ok {hit : Bool} {fired ch : Channel} {c : Nat} (hf : fired.Ok ∧ fired.FreqOk c) (h : ch.Ok ∧ ch.FreqOk c) :
    (steppedDrum hit fired ch).Ok ∧ (steppedDrum hit fired ch).FreqOk c := by
  unfold steppedDrum; split <;> assumption

/-- triggerStep keeps a bank good. -/
theorem triggerStep_spec {decay : Q24} (hd : 1 ≤ decay.toNat ∧ decay.toNat ≤ 2 ^ 24) {p : PatternStore} (hp : p.Ok) {s : Nat} (hs : s < 16)
    {b : Bank} (hb : b.Ok) : ∃ b', triggerStep decay p b s = .ok b' ∧ Bank.Ok b' := by
  refine ⟨_, triggerStep_eq hp hs b, ?_⟩
  have h0 := steppedMelodic_ok (c := 0) hd (hp.get (t := 0) (by decide) hs) (hb.get (c := 0) (by decide)).1 (by decide)
  have h1 := steppedMelodic_ok (c := 1) hd (hp.get (t := 1) (by decide) hs) (hb.get (c := 1) (by decide)).1 (by decide)
  have h2 := steppedDrum_ok (c := 2) (hit := p.drum[0][s]) (Channel.kicked_ok b[2]) (hb.get (c := 2) (by decide))
  have h3 := steppedDrum_ok (c := 3) (hit := p.drum[1][s])
    (Channel.noised_ok (c := 3) (decay := Config.snareDecay) (seed := Config.snareSeed) (hb.get (c := 3) (by decide)).1 (by decide) (by decide))
    (hb.get (c := 3) (by decide))
  have h4 := steppedDrum_ok (c := 4) (hit := p.drum[2][s])
    (Channel.noised_ok (c := 4) (decay := Config.hatDecay) (seed := Config.hatSeed) (hb.get (c := 4) (by decide)).1 (by decide) (by decide))
    (hb.get (c := 4) (by decide))
  intro i
  fin_cases i
  · exact h0
  · exact h1
  · exact h2
  · exact h3
  · exact h4

/-! ### Sequencer -/

theorem seqStop_eq (s : State) :
    seqStop s = .ok ((s.withSeq { s.seq with running := false }).withLive ((s.live.set 0 s.live[0].released).set 1 s.live[1].released)) := by
  simp [seqStop, releaseMelodic_eq]

theorem seqClear_eq (s : State) :
    seqClear s = .ok ((s.withPattern clearPattern).withLive ((s.live.set 0 s.live[0].released).set 1 s.live[1].released)) := by
  simp [seqClear, releaseMelodic_eq]

/-- What a clock tick can do (R113): nothing, or one due step. -/
theorem clockTick_cases {s t : State} (h : clockTick s = .ok t) :
    t = s ∨ ∃ b, s.seq.running = true ∧ stepDue s = true ∧
      triggerStep s.params.melodicDecay s.pattern s.live s.seq.currentStep.toNat = .ok b ∧
      t = ((s.withLive b).emit [.notify s.seq.currentStep]).withSeq
        { s.seq with
          lastStepTs := s.seq.lastStepTs + BitVec.ofNat 32 (stepUs s.seq.bpm)
          currentStep := s.seq.currentStep + 1 } := by
  unfold clockTick at h
  split at h
  · next hd =>
    rw [Bool.and_eq_true] at hd
    rw [fireStep, op_bind_eq_ok] at h
    obtain ⟨b, hb, h⟩ := h
    exact .inr ⟨b, hd.1, hd.2, hb, by simpa using h.symm⟩
  · exact .inl (by simpa using h.symm)

end Sys2Proof.Machine
end

