-- ==== Sys2Proof/Laws/Voice.lean ====
section
/-! SUPPORT. One sample and one frame: exactness and bounds of the datapath units (40_channelbank.md rules R78 to R98), and what renderSample, mixFrame
and mixFrames can do. -/

namespace Sys2Proof.Machine

theorem peak_nonneg (v : BitVec 15) : 0 ≤ peak v := by unfold peak; omega

theorem peak_le (v : BitVec 15) : peak v ≤ 6553 := by
  have := v.isLt
  unfold peak; omega

/-! ### Datapath units -/

/-- Every waveform value lies in [-p, p] (R93). -/
theorem sawtoothWave_bound {p : Int} (hp : 0 ≤ p) (phase : Word) : -p ≤ sawtoothWave p phase ∧ sawtoothWave p phase ≤ p := by
  have hx := phase.isLt
  unfold sawtoothWave
  have h0 : 0 ≤ 2 * p * (phase.toNat : Int) := by positivity
  have h1 : 2 * p * (phase.toNat : Int) ≤ 2 * p * 2 ^ 32 := by
    apply mul_le_mul_of_nonneg_left _ (by omega); exact_mod_cast hx.le
  constructor
  · have := Int.ediv_nonneg h0 (by norm_num : (0 : Int) ≤ 2 ^ 32); omega
  · have h2 : 2 * p * (phase.toNat : Int) / 2 ^ 32 ≤ 2 * p := Int.ediv_le_of_le_mul (by norm_num) (by linarith)
    omega

/-- A channel's waveform value exists when its code is legal, and lies in [-p, p]. -/
theorem channelWave_spec {p : Int} (hp : 0 ≤ p) {ch : Channel} (hw : ch.wave.toNat ≤ 2) :
    ∃ w, channelWave p ch = .ok w ∧ -p ≤ w ∧ w ≤ p := by
  unfold channelWave
  split
  · refine ⟨_, rfl, ?_⟩
    unfold noiseWave; split <;> omega
  · have hcode : ch.wave.toNat = 0 ∨ ch.wave.toNat = 1 ∨ ch.wave.toNat = 2 := by omega
    rcases hcode with e | e | e <;> simp only [selectWave, e]
    · exact ⟨_, rfl, by unfold squareWave; split <;> omega⟩
    · exact ⟨_, rfl, sawtoothWave_bound hp _⟩
    · exact ⟨_, rfl, by unfold pulseWave; split <;> omega⟩

/-- The envelope never raises the amplitude (R98). -/
theorem applyEnvelope_bound {p w : Int} (hw : -p ≤ w ∧ w ≤ p) {level : Q24} (hl : level.toNat ≤ 2 ^ 24) :
    -p ≤ applyEnvelope w level ∧ applyEnvelope w level ≤ p := by
  have hp : 0 ≤ p := by omega
  have h0 : (0 : Int) ≤ level.toNat := by omega
  have h1 : (level.toNat : Int) ≤ 2 ^ 24 := by exact_mod_cast hl
  unfold applyEnvelope
  constructor
  · rw [Int.le_ediv_iff_mul_le (by norm_num)]; nlinarith
  · exact Int.ediv_le_of_le_mul (by norm_num) (by nlinarith)

/-- The decayed level is the exact quotient (R93), and not above the level (R90). -/
theorem decayLevel_toNat {level decay : Q24} (hl : level.toNat ≤ 2 ^ 24) (hd : decay.toNat ≤ 2 ^ 24) :
    (decayLevel level decay).toNat = level.toNat * decay.toNat / 2 ^ 24 ∧ (decayLevel level decay).toNat ≤ level.toNat := by
  have h : level.toNat * decay.toNat / 2 ^ 24 ≤ level.toNat :=
    Nat.div_le_of_le_mul (by nlinarith)
  have e : (decayLevel level decay).toNat = level.toNat * decay.toNat / 2 ^ 24 := by
    unfold decayLevel; rw [BitVec.toNat_ofNat]; exact Nat.mod_eq_of_lt (by omega)
  exact ⟨e, e ▸ h⟩

/-- A swept frequency is the exact maximum of R92 (R93). -/
theorem sweepFreq_toNat {freq : Word} {mult : Q24} (hm : mult.toNat ≤ 2 ^ 24) (hne : mult ≠ Config.envOne) :
    (sweepFreq freq mult).toNat = max (freq.toNat * mult.toNat / 2 ^ 24) (30 * 2 ^ 16) := by
  have h : freq.toNat * mult.toNat / 2 ^ 24 ≤ freq.toNat := Nat.div_le_of_le_mul (by nlinarith)
  have := freq.isLt
  unfold sweepFreq
  rw [if_neg hne, BitVec.toNat_ofNat]
  exact Nat.mod_eq_of_lt (by simp only [Config.kickFloorHz]; omega)

/-- A nonzero noise register stays nonzero (R96). -/
theorem lfsrStep_ne_zero {l : BitVec 15} (h : l ≠ 0) : lfsrStep l ≠ 0 := by
  unfold lfsrStep
  split
  · next hb =>
    intro e
    have := congrArg (fun x => x.getLsbD 14) e
    simp [Config.lfsrTapMask] at this
  · next hb =>
    intro e
    apply h
    ext i hi
    by_cases h0 : i = 0
    · subst h0; simpa using hb
    · have := congrArg (fun x => x.getLsbD (i - 1)) e
      have hi' : 1 + (i - 1) = i := by omega
      simp only [BitVec.getLsbD_ushiftRight, hi'] at this
      rw [← BitVec.getLsbD_eq_getElem]
      simpa using this

/-! ### renderSample -/

theorem Channel.advanced_ok {sr : Nat} {ch : Channel} (h : ch.Ok) {c : Nat} (hf : ch.FreqOk c) (ha : ch.active = true) :
    (ch.advanced sr).Ok ∧ (ch.advanced sr).FreqOk c := by
  obtain ⟨h1, h2, h3, h4, h5, h6, h7⟩ := h
  have hdec := (decayLevel_toNat h2 h4).2
  refine ⟨⟨h1, hdec.trans h2, h3, h4, h5, h6, ?_⟩, ?_⟩
  · intro _ hn
    have hn : ch.isNoise = true := hn
    show (if ch.isNoise then lfsrStep ch.lfsr else ch.lfsr) ≠ 0
    rw [if_pos hn]
    exact lfsrStep_ne_zero (h7 ha hn)
  · intro _ hn
    show freqFloor c ≤ (sweepFreq ch.freq ch.pitchMult).toNat
    by_cases hm : ch.pitchMult = Config.envOne
    · rw [sweepFreq, if_pos hm]; exact hf ha hn
    · rw [sweepFreq_toNat h6 hm]
      unfold freqFloor; split <;> omega

/-- One sample of a good record: it exists, its amplitude is at most the peak, and it leaves a good record. -/
theorem Channel.render_spec {sr : Nat} {p : Int} (hp : 0 ≤ p) {ch : Channel} (h : ch.Ok) {c : Nat} (hf : ch.FreqOk c) :
    ∃ a ch', ch.render sr p = .ok (a, ch') ∧ -p ≤ a ∧ a ≤ p ∧ ch'.Ok ∧ ch'.FreqOk c := by
  unfold render
  split
  · next ha =>
    obtain ⟨w, hw, hb⟩ := channelWave_spec hp h.1
    have hadv := Channel.advanced_ok (sr := sr) h hf ha
    refine ⟨applyEnvelope w ch.envLevel, ch.advanced sr, by rw [hw]; rfl, ?_, ?_, hadv.1, hadv.2⟩
    · exact (applyEnvelope_bound hb h.2.1).1
    · exact (applyEnvelope_bound hb h.2.1).2
  · exact ⟨0, ch, rfl, by omega, hp, h, hf⟩

/-- renderSample answers exactly what rendering the one record answers, that record put back (R97). -/
theorem renderSample_eq_ok {sr : Nat} {p : Int} {b : Bank} {c : Nat} {a : Int} {b' : Bank} (hc : c < 5) :
    renderSample sr p b c = .ok (a, b') ↔ ∃ ch, b[c].render sr p = .ok (a, ch) ∧ b' = b.set c ch := by
  unfold renderSample
  rw [dif_pos hc]
  cases b[c].render sr p with
  | error r => simp
  | ok x => obtain ⟨a1, ch1⟩ := x; simp; grind

/-- renderSample of a good bank. -/
theorem renderSample_spec {sr : Nat} {p : Int} (hp : 0 ≤ p) {b : Bank} (hb : b.Ok) {c : Nat} (hc : c < 5) :
    ∃ a b', renderSample sr p b c = .ok (a, b') ∧ -p ≤ a ∧ a ≤ p ∧ Bank.Ok b' := by
  obtain ⟨a, ch, hr, h1, h2, h3, h4⟩ := Channel.render_spec (sr := sr) hp (hb.get hc).1 (hb.get hc).2
  exact ⟨a, _, (renderSample_eq_ok hc).2 ⟨ch, hr, rfl⟩, h1, h2, hb.set hc h3 h4⟩

/-! ### Frames -/

/-- One frame of a good bank exists and leaves a good bank. -/
theorem mixFrame_spec {sr : Nat} {p : Int} (hp : 0 ≤ p) {b : Bank} (hb : b.Ok) :
    ∃ f b', mixFrame sr p b = .ok (f, b') ∧ Bank.Ok b' := by
  obtain ⟨a0, b0, e0, -, -, h0⟩ := renderSample_spec (sr := sr) hp hb (c := 0) (by decide)
  obtain ⟨a1, b1, e1, -, -, h1⟩ := renderSample_spec (sr := sr) hp h0 (c := 1) (by decide)
  obtain ⟨a2, b2, e2, -, -, h2⟩ := renderSample_spec (sr := sr) hp h1 (c := 2) (by decide)
  obtain ⟨a3, b3, e3, -, -, h3⟩ := renderSample_spec (sr := sr) hp h2 (c := 3) (by decide)
  obtain ⟨a4, b4, e4, -, -, h4⟩ := renderSample_spec (sr := sr) hp h3 (c := 4) (by decide)
  exact ⟨stereo (clampSample (a0 + a1 + a2 + a3 + a4)), b4, by simp [mixFrame, e0, e1, e2, e3, e4], h4⟩

/-- `n` frames of a good bank exist, are `n` many, and leave a good bank. -/
theorem mixFrames_spec {sr : Nat} {p : Int} (hp : 0 ≤ p) (n : Nat) {b : Bank} (hb : b.Ok) :
    ∃ fs b', mixFrames sr p n b = .ok (fs, b') ∧ fs.length = n ∧ Bank.Ok b' := by
  induction n generalizing b with
  | zero => exact ⟨[], b, rfl, rfl, hb⟩
  | succ n ih =>
    obtain ⟨f, b1, e1, h1⟩ := mixFrame_spec (sr := sr) hp hb
    obtain ⟨fs, b2, e2, hl, h2⟩ := ih h1
    exact ⟨f :: fs, b2, by simp [mixFrames, e1, e2], by simp [hl], h2⟩

/-- Frames that were rendered are as many as were asked for, from any bank. -/
theorem mixFrames_length {sr : Nat} {p : Int} {n : Nat} {b : Bank} {fs : List Frame} {b' : Bank}
    (h : mixFrames sr p n b = .ok (fs, b')) : fs.length = n := by
  induction n generalizing b fs b' with
  | zero => simp [mixFrames] at h; simp [h.1]
  | succ n ih =>
    simp only [mixFrames, op_bind_eq_ok] at h
    obtain ⟨⟨f, b1⟩, -, ⟨gs, b2⟩, e2, h⟩ := h
    simp only [Except.ok.injEq, Prod.mk.injEq] at h
    rw [← h.1, List.length_cons, ih e2]

/-- What the live burst can do (R127): replace the live bank by what its frames leave, and deliver them. -/
theorem liveBurst_cases {s t : State} (h : liveBurst s = .ok t) :
    ∃ fs b, mixFrames s.params.sampleRate (peak s.g.volume) s.params.burstFrames s.live = .ok (fs, b) ∧
      t = (s.withLive b).emit [.audioOut fs] := by
  rw [liveBurst, op_bind_eq_ok] at h
  obtain ⟨⟨fs, b⟩, e, h⟩ := h
  exact ⟨fs, b, e, by simpa using h.symm⟩

end Sys2Proof.Machine
end

