-- ==== Sys2Proof/Laws/Recording.lean ====
section
/-! SUPPORT. What the export sink can do: its render (43_mixer_rendersink.md rules R132 to R134), its chunked writes (R135), its byte counts (R138 to
R140). -/

namespace Sys2Proof.Machine

/-- The baseline is a good bank (R133, R42). -/
theorem Bank.reset_ok : Bank.reset.Ok := by decide

/-! ### Render loop -/

theorem exportStep_spec {s : State} (hp : s.pattern.Ok) (hd : s.params.Ok) {x : Bank} (hx : x.Ok) {step : Nat} (hs : step < 16) :
    ∃ fs x', exportStep s x step = .ok (fs, x') ∧ fs.length = samplesPerStep s.params.sampleRate s.seq.bpm ∧ Bank.Ok x' := by
  obtain ⟨b, eb, hb⟩ := triggerStep_spec ⟨hd.2.2.2.2.1, hd.2.2.2.2.2.1⟩ hp hs hx
  obtain ⟨fs, x', e, hl, hx'⟩ := mixFrames_spec (sr := s.params.sampleRate) (peak_nonneg s.g.volume)
    (samplesPerStep s.params.sampleRate s.seq.bpm) hb
  exact ⟨fs, x', by simp [exportStep, eb, e], hl, hx'⟩

theorem exportSteps_spec {s : State} (hp : s.pattern.Ok) (hd : s.params.Ok) (steps : List Nat) (hs : ∀ i ∈ steps, i < 16) {x : Bank}
    (hx : x.Ok) : ∃ fs x', exportSteps s steps x = .ok (fs, x') ∧
      fs.length = steps.length * samplesPerStep s.params.sampleRate s.seq.bpm ∧ Bank.Ok x' := by
  induction steps generalizing x with
  | nil => exact ⟨[], x, rfl, by simp, hx⟩
  | cons i steps ih =>
    obtain ⟨fs, x1, e1, l1, h1⟩ := exportStep_spec hp hd hx (hs i (by simp))
    obtain ⟨gs, x2, e2, l2, h2⟩ := ih (fun j hj => hs j (by simp [hj])) h1
    exact ⟨fs ++ gs, x2, by simp [exportSteps, e1, e2], by simp only [List.length_append, List.length_cons, l1, l2]; ring, h2⟩

/-- An export of a legal pattern renders exactly `N * 16 * sps` frames (R132, R134). -/
theorem exportLoops_spec {s : State} (hp : s.pattern.Ok) (hd : s.params.Ok) (n : Nat) {x : Bank} (hx : x.Ok) :
    ∃ fs x', exportLoops s n x = .ok (fs, x') ∧
      fs.length = n * 16 * samplesPerStep s.params.sampleRate s.seq.bpm ∧ Bank.Ok x' := by
  induction n generalizing x with
  | zero => exact ⟨[], x, rfl, by simp, hx⟩
  | succ n ih =>
    obtain ⟨fs, x1, e1, l1, h1⟩ := exportSteps_spec hp hd (List.range Config.numSteps) (by simp) hx
    obtain ⟨gs, x2, e2, l2, h2⟩ := ih h1
    refine ⟨fs ++ gs, x2, by simp [exportLoops, e1, e2], ?_, h2⟩
    simp only [List.length_append, l1, l2, List.length_range]; ring

/-! ### Chunked writes -/

/-- The frames that go out and those left in the buffer are the frames that came in, in order (R135). -/
theorem chunkFrames_flatten (chunk : Nat) (buf fs : List Frame) :
    (chunkFrames chunk buf fs).1.flatten ++ (chunkFrames chunk buf fs).2 = buf ++ fs := by
  induction fs generalizing buf with
  | nil => simp [chunkFrames]
  | cons f fs ih =>
    rw [chunkFrames]
    split
    · have := ih []
      simp only [List.flatten_cons, List.append_assoc] at this ⊢
      rw [this]; simp
    · rw [ih]; simp

/-- Every full write holds exactly EXPORT_CHUNK_FRAMES frames (R135). -/
theorem chunkFrames_full (chunk : Nat) (buf fs : List Frame) : ∀ c ∈ (chunkFrames chunk buf fs).1, c.length = chunk := by
  induction fs generalizing buf with
  | nil => simp [chunkFrames]
  | cons f fs ih =>
    rw [chunkFrames]
    split
    · next h =>
      intro c hc
      rcases List.mem_cons.1 hc with rfl | hc
      · exact h
      · exact ih [] c hc
    · exact ih _

/-- The buffer never holds a whole chunk between writes (R135). -/
theorem chunkFrames_rest {chunk : Nat} (h1 : 1 ≤ chunk) {buf : List Frame} (hb : buf.length < chunk) (fs : List Frame) :
    (chunkFrames chunk buf fs).2.length < chunk := by
  induction fs generalizing buf with
  | nil => simpa [chunkFrames] using hb
  | cons f fs ih =>
    rw [chunkFrames]
    split
    · exact ih (by simp only [List.length_nil]; omega)
    · next h => exact ih (by simp only [List.length_append, List.length_singleton] at h ⊢; omega)

/-- The data writes together are the frames in order, whatever the chunk size (R135). -/
theorem dataWrites_flatten (chunk : Nat) (fs : List Frame) : (dataWrites chunk fs).flatten = fs := by
  have h := chunkFrames_flatten chunk [] fs
  unfold dataWrites
  simp only
  split
  · next e => rw [e] at h; simpa using h
  · simpa using h

/-! ### Byte counts -/

@[simp] theorem leBytes_length (n v : Nat) : (leBytes n v).length = n := by simp [leBytes]

@[simp] theorem frameBytes_length (f : Frame) : (frameBytes f).length = 4 := by simp [frameBytes]

@[simp] theorem framesBytes_length (fs : List Frame) : (framesBytes fs).length = 4 * fs.length := by
  induction fs with
  | nil => rfl
  | cons f fs ih =>
    simp only [framesBytes, List.flatMap_cons, List.length_append, frameBytes_length, List.length_cons] at ih ⊢
    omega

@[simp] theorem wavHeader_length (sampleRate dataBytes : Nat) : (wavHeader sampleRate dataBytes).length = 44 := by simp [wavHeader]

/-! ### Export -/

/-- What a session can do: its own port events, in order, with only readback data between them; packets offered move to the tail of Q; EXPORT_STATUS. -/
theorem exportSession_cases {status : BitVec 2} {os : List PortOutput} {inside : List (List SideEvent)} {s t : State}
    (h : exportSession status os inside s = .next t) :
    ∃ (taken : List Packet) (out : List PortOutput),
      t = { s with g := { s.g with exportStatus := status }, queue := s.queue ++ taken,
                   env := { s.env with offered := t.env.offered }, trace := s.trace ++ out } ∧
      s.env.offered = taken ++ t.env.offered ∧ (∀ p ∈ taken, p.wf = true) ∧
      (∀ o ∈ out, o ∈ os ++ [.exportDone status] ∨ ∃ a d, o = .rbData a d) ∧
      (s.queue.length ≤ s.params.queueDepth → t.queue.length ≤ s.params.queueDepth) := by
  induction os generalizing inside s with
  | nil =>
    obtain ⟨u, hu, h⟩ := andThen_eq_next.1 h
    simp only [Host.Outcome.next.injEq] at h
    subst h
    obtain ⟨taken, rb, h1, h2, h3, h4, h5⟩ := sideEvents_cases hu
    refine ⟨taken, rb ++ [.exportDone status], ?_, h2, h3, ?_, h5⟩
    · rw [h1]; simp [exportDone, State.withG, State.emit]
    · intro o ho
      rcases List.mem_append.1 ho with ho | ho
      · exact .inr (h4 o ho)
      · exact .inl (by simpa using ho)
  | cons o os ih =>
    obtain ⟨u, hu, h⟩ := andThen_eq_next.1 h
    obtain ⟨taken, rb, h1, h2, h3, h4, h5⟩ := sideEvents_cases hu
    obtain ⟨taken', out, k1, k2, k3, k4, k5⟩ := ih h
    refine ⟨taken ++ taken', rb ++ o :: out, ?_, ?_, ?_, ?_, ?_⟩
    · rw [k1, h1]; simp [State.emit]
    · rw [h2, show u.env.offered = taken' ++ t.env.offered from k2, List.append_assoc]
    · intro p hp
      rcases List.mem_append.1 hp with hp | hp
      · exact h3 p hp
      · exact k3 p hp
    · intro x hx
      rcases List.mem_append.1 hx with hx | hx
      · exact .inr (h4 x hx)
      · rcases List.mem_cons.1 hx with rfl | hx
        · exact .inl (by simp)
        · rcases k4 x hx with hx | hx
          · exact .inl (List.mem_cons_of_mem _ hx)
          · exact .inr hx
    · intro hq
      have hp : u.params = s.params := by rw [h1]
      have := k5 (by show u.queue.length ≤ u.params.queueDepth; rw [hp]; exact h5 hq)
      rw [show (u.emit [o]).params = s.params from hp] at this
      exact this

/-- The own port events of a session leave in order, the report last, whatever falls between them (R130, R171). -/
theorem exportSession_order {status : BitVec 2} {os : List PortOutput} {inside : List (List SideEvent)} {s t : State}
    (h : exportSession status os inside s = .next t) :
    ∃ out, t.trace = s.trace ++ out ∧ (os ++ [PortOutput.exportDone status]).Sublist out := by
  induction os generalizing inside s with
  | nil =>
    obtain ⟨u, hu, h⟩ := andThen_eq_next.1 h
    simp only [Host.Outcome.next.injEq] at h
    obtain ⟨_, rb, hv, -⟩ := sideEvents_cases hu
    exact ⟨rb ++ [.exportDone status], by rw [← h, hv]; simp [exportDone, State.emit], List.sublist_append_right _ _⟩
  | cons o os ih =>
    obtain ⟨u, hu, h⟩ := andThen_eq_next.1 h
    obtain ⟨out, ht, hs⟩ := ih h
    obtain ⟨_, rb, hv, -⟩ := sideEvents_cases hu
    exact ⟨rb ++ o :: out, by rw [ht, hv]; simp [State.emit], (hs.cons_cons o).trans (List.sublist_append_right _ _)⟩

/-- A session answers a next state when every packet offered is a packet of R59. -/
theorem exportSession_total {status : BitVec 2} {os : List PortOutput} {inside : List (List SideEvent)} {s : State}
    (h : ∀ p ∈ s.env.offered, p.wf = true) : ∃ t, exportSession status os inside s = .next t := by
  induction os generalizing inside s with
  | nil =>
    obtain ⟨u, hu⟩ := sideEvents_total (es := inside.headD []) h
    exact ⟨_, by rw [exportSession, hu]; rfl⟩
  | cons o os ih =>
    obtain ⟨u, hu⟩ := sideEvents_total (es := inside.headD []) h
    obtain ⟨taken, rb, h1, h2, -⟩ := sideEvents_cases hu
    obtain ⟨t, ht⟩ := ih (inside := inside.tail) (s := u.emit [o]) fun p hp =>
      h p (by rw [h2]; exact List.mem_append_right _ hp)
    exact ⟨t, by rw [exportSession, hu]; exact ht⟩

/-- An export that the storage sink does not open (R131). -/
theorem runExport_failed {s : State} (h : sinkAnswer s = false) (n : Nat) :
    runExport n s = exportSession 2 [.sinkOpen false] (insideEvents s) (sinkOpened s) := by
  simp [runExport, h]

/-- An export of a legal pattern that the storage sink opens (R130). -/
theorem runExport_opened {s : State} (h : sinkAnswer s = true) (hp : s.pattern.Ok) (hd : s.params.Ok) (n : Nat) :
    ∃ fs x, exportLoops s n Bank.reset = .ok (fs, x) ∧ fs.length = n * 16 * samplesPerStep s.params.sampleRate s.seq.bpm ∧ Bank.Ok x ∧
      runExport n s = exportSession 1 (.sinkOpen true :: sessionOutputs s n fs) (insideEvents s)
        (((sinkOpened s).withScratch x).withFrameBuf (chunkFrames s.params.chunkFrames [] fs).2) := by
  obtain ⟨fs, x, e, l, hx⟩ := exportLoops_spec hp hd n Bank.reset_ok
  exact ⟨fs, x, e, l, hx, by simp [runExport, h, e]⟩

/-- An export that answers a next state is one session, of an unopened sink or of a render that succeeded (R130, R131). -/
theorem runExport_cases {n : Nat} {s t : State} (h : runExport n s = .next t) :
    (sinkAnswer s = false ∧ exportSession 2 [.sinkOpen false] (insideEvents s) (sinkOpened s) = .next t) ∨
    ∃ fs x, sinkAnswer s = true ∧ exportLoops s n Bank.reset = .ok (fs, x) ∧
      exportSession 1 (.sinkOpen true :: sessionOutputs s n fs) (insideEvents s)
        (((sinkOpened s).withScratch x).withFrameBuf (chunkFrames s.params.chunkFrames [] fs).2) = .next t := by
  unfold runExport at h
  split at h
  · next ha =>
    obtain ⟨⟨fs, x⟩, e, h⟩ := opThen_eq_next.1 h
    exact .inr ⟨fs, x, ha, e, h⟩
  · next ha => exact .inl ⟨by simpa using ha, h⟩

end Sys2Proof.Machine
end

