-- ==== Sys2Proof/Laws/Ports.lean ====
section
/-! SUPPORT. How the port events unfold: the step and the drain (70_reset_and_hazards.md rule R177, 44_commands.md rule R157). -/

namespace Sys2Proof.Machine

/-- With no port event listed the block holds its state (R172). -/
theorem step_idle {s : State} (h : s.env.events = []) : step s = .next s := by simp [step, nextEvent, h]

/-- A step is the next port event of the schedule (R5). -/
theorem step_event {s : State} {e : PortEvent} {es : List PortEvent} (h : s.env.events = e :: es) :
    step s = portEvent e (s.withEnv { s.env with events := es }) := by
  simp [step, nextEvent, h]

@[simp] theorem drain_zero (s : State) : drain 0 s = .next s := rfl

/-- One packet of a drain (R157). -/
theorem drain_succ {s : State} {p : Packet} {ps : List Packet} (h : s.queue = p :: ps) (k : Nat) :
    drain (k + 1) s = andThen (executePacket p (s.withQueue ps)) (drain k) := by
  simp [drain, h]

theorem drain_succ_empty {s : State} (h : s.queue = []) (k : Nat) : drain (k + 1) s = .next s := by
  simp [drain, h]

/-- A drained packet that decodes runs its instruction. -/
theorem executePacket_ok {p : Packet} {i : Instr} (h : decode p = .ok i) (s : State) : executePacket p s = exec i s := by
  simp [executePacket, h]

/-- A tick and a burst are a clock tick, then a live burst (R177). -/
theorem tickAndBurst_cases {s t : State} (h : tickAndBurst s = .next t) : ∃ u, clockTick s = .ok u ∧ liveBurst u = .ok t := by
  obtain ⟨u, hu, h⟩ := andThen_eq_next.1 h
  exact ⟨u, ofOp_eq_next.1 hu, ofOp_eq_next.1 h⟩

end Sys2Proof.Machine
end

