-- ==== Sys2Proof/Certificates/Slice0/Obligations.lean ====
section
/-! DEFINITION. The statements for the provers, from the numbered rules of spec/. Operands are written through `clampArg` (statement
ArgumentsAreClampedToTheNearerBound says what that is), results through records written out here, so that no statement repeats a meaning. -/

open Sys2Proof Sys2Proof.Machine

/-! ### Words the statements use -/

namespace Sys2Proof.Certificates

/-- The operand at `k`, clamped, or `dflt` where the packet carries none. -/
def operandOr (args : List Word) (k lo hi dflt : Nat) : Nat :=
  match args[k]? with
  | some w => clampArg w lo hi
  | none => dflt

/-- The bytes that outputs send to the storage sink, in order (R135: "The concatenation of all SinkWrite payloads"). -/
def sinkBytes (os : List PortOutput) : List Byte :=
  os.flatMap fun o => match o with
    | .sinkWrite bs => bs
    | _ => []

/-- The record a melodic trigger leaves (R73). -/
def melodicNote (decay : Q24) (f : Nat) (w : WaveCode) (lfsr : BitVec 15) : Channel where
  phase := 0
  freq := BitVec.ofNat 32 (f * 65536)
  wave := w
  envLevel := 0x1000000#25
  envDecay := decay
  active := true
  isNoise := false
  pitchMult := 0x1000000#25
  lfsr := lfsr

/-- The record a Kick trigger leaves (R74). -/
def kickHit (lfsr : BitVec 15) : Channel where
  phase := 0
  freq := 0x00C80000#32
  wave := 0
  envLevel := 0x1000000#25
  envDecay := 0xFFEC57#25
  active := true
  isNoise := false
  pitchMult := 0xFFC505#25
  lfsr := lfsr

/-- The record a Snare or Hat trigger leaves (R75, R76). -/
def noiseHit (decay : Q24) (freq : Word) (wave : WaveCode) : Channel where
  phase := 0
  freq := freq
  wave := wave
  envLevel := 0x1000000#25
  envDecay := decay
  active := true
  isNoise := true
  pitchMult := 0x1000000#25
  lfsr := 0x7FFF#15

/-- A record after `k` samples of it, each rendered at peak `p` (R87). -/
def samples (sr : Nat) (p : Int) : Nat → Channel → Op Channel
  | 0, ch => .ok ch
  | k + 1, ch => do
    let (_, ch) ← ch.render sr p
    samples sr p k ch

/-- What triggerStep leaves in melodic channel `c` (R104). -/
def melodicAfterStep (decay : Q24) (cell : MelCell) (ch : Channel) : Channel :=
  if cell.freqHz = 0 then { ch with active := false, envLevel := 0 }
  else melodicNote decay cell.freqHz.toNat cell.wave ch.lfsr

/-- A clock tick at the time `base + t` µs, mod 2^32. -/
def tickAt (base : Word) (t : Nat) (s : State) : Op State := clockTick (s.withNow (base + BitVec.ofNat 32 t))

/-- Clock ticks at the given offsets from `base`, one after another. -/
def ticksAt (base : Word) : List Nat → State → Op State
  | [], s => .ok s
  | t :: ts, s => do
    let s ← tickAt base t s
    ticksAt base ts s

/-- `k` clock ticks at the time the state holds. -/
def ticks : Nat → State → Op State
  | 0, s => .ok s
  | k + 1, s => do
    let s ← clockTick s
    ticks k s

/-- Offsets that never go back and are less than `d` apart, from `prev` on. -/
def SpacedBelow (d : Nat) : Nat → List Nat → Prop
  | _, [] => True
  | prev, t :: ts => prev ≤ t ∧ t < prev + d ∧ SpacedBelow d t ts

/-- The notifications of `n` steps from step `i` on (R117, R118). -/
def notifications (i : BitVec 4) (n : Nat) : List PortOutput :=
  (List.range n).map fun k => .notify (i + BitVec.ofNat 4 k)

/-- `fs` are successive frames of the bank `b`, in order, at sample rate `sr` and peak `p`; they leave the bank `b'` (R127, R129). -/
def FramesFrom (sr : Nat) (p : Int) : Bank → List Frame → Bank → Prop
  | b, [], b' => b' = b
  | b, f :: fs, b' => ∃ b1, mixFrame sr p b = .ok (f, b1) ∧ FramesFrom sr p b1 fs b'

/-- `fs` are what the export of `s` renders from the bank `x` over the given steps, in order: at each one triggerStep and then exactly `sps` frames, the
records carried over to the next; `x'` is the bank after them (R134). -/
def StepsFrom (s : State) (sps : Nat) : Bank → List Nat → List Frame → Bank → Prop
  | x, [], fs, x' => fs = [] ∧ x' = x
  | x, i :: steps, fs, x' => ∃ x1 x2 gs hs, triggerStep s.params.melodicDecay s.pattern x i = .ok x1 ∧ gs.length = sps ∧
      FramesFrom s.params.sampleRate (peak s.g.volume) x1 gs x2 ∧ StepsFrom s sps x2 steps hs x' ∧ fs = gs ++ hs

/-- The outputs `own` leave in order, and before each of them its list of CmdAccept and Readback events is performed, from `s` to `u`; `out` is all that leaves
(R171). A readback sees the state as it is then. -/
def Interleaved : List PortOutput → List (List SideEvent) → State → List PortOutput → State → Prop
  | [], _, s, out, u => out = [] ∧ u = s
  | o :: own, inside, s, out, u => ∃ rb v more, sideEvents (inside.headD []) s = .next v ∧ v.trace = s.trace ++ rb ∧
      Interleaved own inside.tail v more u ∧ out = rb ++ o :: more

/-- The events of other ports inside the next export, as its session lists them: none where no session is listed (log entries 4, 5). -/
def eventsInside (s : State) : List (List SideEvent) := (s.env.sessions.map Session.during).headD []

/-- The addresses R38 lists. -/
def Mapped (a : Nat) : Prop :=
  a ≤ 6 ∨ (0x100 ≤ a ∧ a < 0x150 ∧ a % 16 ≤ 6) ∨ (0x200 ≤ a ∧ a < 0x220) ∨ (0x300 ≤ a ∧ a < 0x330)

/-- An opcode R66 reserves. -/
def Reserved (opc : BitVec 8) : Prop := opc = 0 ∨ 0x0C ≤ opc.toNat

end Sys2Proof.Certificates

open Sys2Proof.Certificates

/-! ### Encoding -/

/-- R59, R60, R63: the encoder and the decoder agree on every command with every operand word. -/
def Obligations.DecodeOfEncodeIsTheInstruction : Prop :=
  ∀ i : Instr, i.wf = true → decode (encode i) = .ok i

/-- R67: H[31:12] is not read; headers that differ only there decode alike and their packets execute alike. -/
def Obligations.DecodeIgnoresReservedHeaderBits : Prop :=
  ∀ (h h' : Word) (args : List Word), h.extractLsb' 0 12 = h'.extractLsb' 0 12 →
    decode ⟨h, args⟩ = decode ⟨h', args⟩ ∧ ∀ s : State, executePacket ⟨h, args⟩ s = executePacket ⟨h', args⟩ s

/-- R65: surplus argument words change nothing. -/
def Obligations.DecodeIgnoresSurplusArguments : Prop :=
  ∀ (i : Instr) (surplus : List Word), i.operands.length = i.required + i.optional →
    i.operands.length + surplus.length ≤ 15 →
    decode ⟨headerOf (opcode i) (i.operands.length + surplus.length), i.operands ++ surplus⟩ = .ok i

/-- R66, R154: a packet with a reserved opcode decodes to no command, and draining it changes nothing. -/
def Obligations.ReservedOpcodeIsDropped : Prop :=
  ∀ (p : Packet) (s : State), p.wf = true → Reserved (opcOf p.header) →
    decode p = .error (.reservedOpcode (opcOf p.header)) ∧ executePacket p s = .next s

/-- R62: the length of a packet is 1 + ARGC words, whatever its OPC. -/
def Obligations.PacketLengthComesFromArgcAlone : Prop :=
  ∀ (p : Packet) (rest : List Word), p.wf = true → takePacket (p.header :: (p.args ++ rest)) = some (p, rest)

/-- R63 and the worked encodings of 30_encoding.md section 6. -/
def Obligations.WorkedEncodingsDecode : Prop :=
  decode ⟨0x00000405#32, [0x00000000#32, 0x00000000#32, 0x000001B8#32, 0x00000000#32]⟩ =
    .ok (.setMelodicStep [0#32, 0#32, 440#32, 0#32]) ∧
  decode ⟨0x00000103#32, [0x00000005#32]⟩ = .ok (.setWaveform [5#32]) ∧
  decode ⟨0x00000106#32, [0x00000001#32]⟩ = .ok (.setDrumStep [1#32]) ∧
  decode ⟨0x00000107#32, [0xFFFFFFF9#32]⟩ = .ok (.setBpm [BitVec.ofInt 32 (-7)]) ∧
  decode ⟨0x00000008#32, []⟩ = .ok .seqStart ∧
  decode ⟨0x0000010B#32, [0x00000002#32]⟩ = .ok (.exportWav [2#32])

/-- R64, R155: a command with fewer operands than it requires changes nothing. -/
def Obligations.ShortCommandIsDropped : Prop :=
  ∀ (i : Instr) (s : State), i.operands.length < i.required → exec i s = .next s

/-- R61, R68, R161: an argument is a signed word, and the clamp gives it, or the nearer bound. -/
def Obligations.ArgumentsAreClampedToTheNearerBound : Prop :=
  ∀ (w : Word) (lo hi : Nat), lo ≤ hi →
    (w.toInt ≤ lo → clampArg w lo hi = lo) ∧ ((hi : Int) ≤ w.toInt → clampArg w lo hi = hi) ∧
    ((lo : Int) ≤ w.toInt → w.toInt ≤ hi → (clampArg w lo hi : Int) = w.toInt)

/-! ### Commands: what each does, and that it completes -/

/-- R143 with R73 and R77: the addressed melodic channel is released at frequency 0, triggered at another; nothing else changes. -/
def Obligations.LiveNoteOnTriggersOrReleasesItsChannel : Prop :=
  ∀ (s : State) (a0 : Word) (rest : List Word), s.g.liveWave.toNat ≤ 2 →
    ∃ t, exec (.liveNoteOn (a0 :: rest)) s = .next t ∧ t = { s with live := t.live } ∧
      ∀ c : Fin 5, t.live[c] =
        if c.val ≠ operandOr (a0 :: rest) 1 0 1 0 then s.live[c]
        else if clampArg a0 0 65535 = 0 then { s.live[c] with active := false, envLevel := 0 }
        else melodicNote s.params.melodicDecay (clampArg a0 0 65535) s.g.liveWave s.live[c].lfsr

/-- R144 with R77. -/
def Obligations.LiveNoteOffReleasesItsChannel : Prop :=
  ∀ (s : State) (args : List Word),
    ∃ t, exec (.liveNoteOff args) s = .next t ∧ t = { s with live := t.live } ∧
      ∀ c : Fin 5, t.live[c] =
        if c.val ≠ operandOr args 0 0 1 0 then s.live[c] else { s.live[c] with active := false, envLevel := 0 }

/-- R145, R146, R149: each of the three stores its clamped operand in its one field and changes nothing else. -/
def Obligations.SetCommandsStoreTheirClampedOperand : Prop :=
  ∀ (s : State) (a0 : Word) (rest : List Word),
    exec (.setWaveform (a0 :: rest)) s = .next { s with g := { s.g with liveWave := BitVec.ofNat 2 (clampArg a0 0 2) } } ∧
    exec (.setVolume (a0 :: rest)) s = .next { s with g := { s.g with volume := BitVec.ofNat 15 (clampArg a0 0 32767) } } ∧
    exec (.setBpm (a0 :: rest)) s = .next { s with seq := { s.seq with bpm := BitVec.ofNat 8 (clampArg a0 40 240) } }

/-- R147 with R101: one melodic cell is written, both fields; no other cell and nothing else changes. -/
def Obligations.SetMelodicStepWritesOneCell : Prop :=
  ∀ (s : State) (a0 a1 a2 a3 : Word) (rest : List Word),
    ∃ t, exec (.setMelodicStep (a0 :: a1 :: a2 :: a3 :: rest)) s = .next t ∧
      t = { s with pattern := { s.pattern with mel := t.pattern.mel } } ∧
      ∀ (tr : Fin 2) (st : Fin 16), t.pattern.mel[tr][st] =
        if tr.val = clampArg a0 0 1 ∧ st.val = clampArg a1 0 15 then
          ⟨BitVec.ofNat 16 (clampArg a2 0 65535), BitVec.ofNat 2 (clampArg a3 0 2)⟩
        else s.pattern.mel[tr][st]

/-- R148 with R102: one hit flag is written, set for a positive operand; no other cell and nothing else changes. -/
def Obligations.SetDrumStepWritesOneHit : Prop :=
  ∀ (s : State) (a0 a1 a2 : Word) (rest : List Word),
    ∃ t, exec (.setDrumStep (a0 :: a1 :: a2 :: rest)) s = .next t ∧
      t = { s with pattern := { s.pattern with drum := t.pattern.drum } } ∧
      ∀ (d : Fin 3) (st : Fin 16), t.pattern.drum[d][st] =
        if d.val = clampArg a0 0 2 ∧ st.val = clampArg a1 0 15 then decide (0 < a2.toInt) else s.pattern.drum[d][st]

/-- R150 with R110, from Stopped and from Running. -/
def Obligations.SeqStartRestartsAtStepZero : Prop :=
  ∀ s : State, exec .seqStart s =
    .next { s with seq := { running := true, bpm := s.seq.bpm, currentStep := 0, lastStepTs := s.now } }

/-- R151 with R111, from Running and from Stopped: percussion, the pointer and the time stamp are unchanged. -/
def Obligations.SeqStopReleasesTheMelodicChannels : Prop :=
  ∀ s : State, ∃ t, exec .seqStop s = .next t ∧
    t = { s with seq := { s.seq with running := false }, live := t.live } ∧
    ∀ c : Fin 5, t.live[c] = if c.val < 2 then { s.live[c] with active := false, envLevel := 0 } else s.live[c]

/-- R152 with R103 and R112: every cell a rest or off, the melodic channels released, the run state unchanged. -/
def Obligations.SeqClearEmptiesThePattern : Prop :=
  ∀ s : State, ∃ t, exec .seqClear s = .next t ∧ t = { s with pattern := t.pattern, live := t.live } ∧
    (∀ (tr : Fin 2) (st : Fin 16), t.pattern.mel[tr][st] = ⟨0, 0⟩) ∧
    (∀ (d : Fin 3) (st : Fin 16), t.pattern.drum[d][st] = false) ∧
    ∀ c : Fin 5, t.live[c] = if c.val < 2 then { s.live[c] with active := false, envLevel := 0 } else s.live[c]

/-- R131, R162, R171: an export that the storage sink does not open completes: it writes nothing to the sink and changes only EXPORT_STATUS; packets
offered meanwhile go to Q and readbacks are answered. The premise on the packets offered is R59. That the answer is used up in `env` is the model's own (log
entry 4), and so is the session's list of what falls inside (log entry 5). -/
def Obligations.ExportOpenFailureOnlyReports : Prop :=
  ∀ (s : State) (a0 : Word) (rest : List Word), sinkAnswer s = false → (∀ p ∈ s.env.offered, p.wf = true) →
    ∃ t out u, exec (.exportWav (a0 :: rest)) s = .next t ∧
      Interleaved [.sinkOpen false, .exportDone 2] (eventsInside s) s out u ∧
      t = { s with g := { s.g with exportStatus := 2 }, queue := u.queue, trace := s.trace ++ out,
                   env := { s.env with offered := u.env.offered, sessions := s.env.sessions.tail, sinkCalls := s.env.sinkCalls + 1 } }

/-- R153 with R130, R132, R135, R136, R137, R140 and R171: an opened export completes with status 1 and sends, between open and close, the header and then the
data, 44 + 4 * N * 16 * sps bytes in all; every data write but the last holds exactly EXPORT_CHUNK_FRAMES frames, none is empty or longer; CmdAccept and
Readback events fall between these outputs; all state but the scratch bank, the frame buffer, EXPORT_STATUS and Q is left as it was. The premises are
R41, R8 and, for the packets offered, R59. That the sink's answer is used up in `env` is the model's own (log entry 4), and so is the session's list of what
falls inside (log entry 5). -/
def Obligations.ExportWritesTheWholeFile : Prop :=
  ∀ (s : State) (a0 : Word) (rest : List Word), sinkAnswer s = true → s.pattern.Ok → s.params.Ok → (∀ p ∈ s.env.offered, p.wf = true) →
    ∃ (t : State) (data : List (List Byte)) (out : List PortOutput) (u : State), exec (.exportWav (a0 :: rest)) s = .next t ∧
      Interleaved
        (.sinkOpen true :: .sinkWrite (wavHeader s.params.sampleRate
            (4 * (clampArg a0 0 255 * 16 * (15 * s.params.sampleRate / s.seq.bpm.toNat)))) ::
          (data.map .sinkWrite ++ [.sinkClose, .exportDone 1]))
        (eventsInside s) s out u ∧
      (sinkBytes out).length = 44 + 4 * (clampArg a0 0 255 * 16 * (15 * s.params.sampleRate / s.seq.bpm.toNat)) ∧
      (∀ k w, data[k]? = some w → k + 1 < data.length → w.length = 4 * s.params.chunkFrames) ∧
      (∀ w ∈ data, 1 ≤ w.length ∧ w.length ≤ 4 * s.params.chunkFrames) ∧
      t = { s with scratch := t.scratch, frameBuf := t.frameBuf, g := { s.g with exportStatus := 1 }, queue := u.queue, trace := s.trace ++ out,
                   env := { s.env with offered := u.env.offered, sessions := s.env.sessions.tail, sinkCalls := s.env.sinkCalls + 1 } }

/-! ### Commands: frames -/

/-- Frame of LIVE_NOTE_ON and LIVE_NOTE_OFF, every form: only the addressed channel may change, never its LFSR, and no percussion channel
(R143, R144, R182). -/
def Obligations.LiveNoteCommandsKeepAllElse : Prop :=
  ∀ (s t : State) (args : List Word),
    (exec (.liveNoteOn args) s = .next t →
      t = { s with live := t.live } ∧ (∀ c : Fin 5, c.val ≠ operandOr args 1 0 1 0 → t.live[c] = s.live[c]) ∧
      (∀ c : Fin 5, 2 ≤ c.val → t.live[c] = s.live[c]) ∧ ∀ c : Fin 5, t.live[c].lfsr = s.live[c].lfsr) ∧
    (exec (.liveNoteOff args) s = .next t →
      t = { s with live := t.live } ∧ (∀ c : Fin 5, c.val ≠ operandOr args 0 0 1 0 → t.live[c] = s.live[c]) ∧
      (∀ c : Fin 5, 2 ≤ c.val → t.live[c] = s.live[c]) ∧
      ∀ c : Fin 5, t.live[c] = { s.live[c] with active := t.live[c].active, envLevel := t.live[c].envLevel })

/-- Frame of the commands that set one field: SET_WAVEFORM, SET_VOLUME, SET_BPM, SEQ_START, every form (R145, R146, R149, R150). -/
def Obligations.SettingCommandsKeepAllElse : Prop :=
  ∀ (s t : State) (args : List Word),
    (exec (.setWaveform args) s = .next t → t = { s with g := { s.g with liveWave := t.g.liveWave } }) ∧
    (exec (.setVolume args) s = .next t → t = { s with g := { s.g with volume := t.g.volume } }) ∧
    (exec (.setBpm args) s = .next t → t = { s with seq := { s.seq with bpm := t.seq.bpm } }) ∧
    (exec .seqStart s = .next t → t = { s with seq := { t.seq with bpm := s.seq.bpm } })

/-- Frame of the commands that write cells or release voices, every form: SET_MELODIC_STEP and SET_DRUM_STEP change at most the one cell their operands
address, SEQ_CLEAR the cells and the ACTIVE and ENV_LEVEL of the melodic channels, SEQ_STOP RUNNING and the same (R147, R148, R151, R152). -/
def Obligations.PatternAndStopCommandsKeepAllElse : Prop :=
  ∀ (s t : State) (args : List Word),
    (exec (.setMelodicStep args) s = .next t →
      t = { s with pattern := { s.pattern with mel := t.pattern.mel } } ∧
      ∀ (tr : Fin 2) (st : Fin 16), ¬ (tr.val = operandOr args 0 0 1 0 ∧ st.val = operandOr args 1 0 15 0) →
        t.pattern.mel[tr][st] = s.pattern.mel[tr][st]) ∧
    (exec (.setDrumStep args) s = .next t →
      t = { s with pattern := { s.pattern with drum := t.pattern.drum } } ∧
      ∀ (d : Fin 3) (st : Fin 16), ¬ (d.val = operandOr args 0 0 2 0 ∧ st.val = operandOr args 1 0 15 0) →
        t.pattern.drum[d][st] = s.pattern.drum[d][st]) ∧
    (exec .seqClear s = .next t → t = { s with pattern := t.pattern, live := t.live } ∧
      (∀ c : Fin 5, 2 ≤ c.val → t.live[c] = s.live[c]) ∧
      ∀ c : Fin 5, t.live[c] = { s.live[c] with active := t.live[c].active, envLevel := t.live[c].envLevel }) ∧
    (exec .seqStop s = .next t → t = { s with seq := { s.seq with running := t.seq.running }, live := t.live } ∧
      (∀ c : Fin 5, 2 ≤ c.val → t.live[c] = s.live[c]) ∧
      ∀ c : Fin 5, t.live[c] = { s.live[c] with active := t.live[c].active, envLevel := t.live[c].envLevel })

/-- Frame of EXPORT, every form and whatever the sink answers: the live bank, the PatternStore, the sequencer, VOLUME and LIVE_WAVE are as before, Q keeps what
it held, at most with offered packets behind it in order, and no Notify and no AudioOut is among its outputs (R137, R117, R141). That the packets offered
stand in State is the model's own (log entry 2). -/
def Obligations.ExportKeepsLiveState : Prop :=
  ∀ (s t : State) (args : List Word), exec (.exportWav args) s = .next t →
    t.live = s.live ∧ t.pattern = s.pattern ∧ t.seq = s.seq ∧ t.g.volume = s.g.volume ∧
    t.g.liveWave = s.g.liveWave ∧ t.params = s.params ∧ t.now = s.now ∧ t.env.events = s.env.events ∧
    s.queue <+: t.queue ∧ t.queue ++ t.env.offered = s.queue ++ s.env.offered ∧
    ∃ os, t.trace = s.trace ++ os ∧ (∀ i, PortOutput.notify i ∉ os) ∧ ∀ fs, PortOutput.audioOut fs ∉ os

/-! ### Voices -/

/-- R163, R46, R73 to R77, R101, R102, R104 (V-ERR-4): each of these internal operations faults on an operand outside its domain, by its own name. R163's
table does not name renderSample: that it faults on a channel outside R87's domain is the model's deduction from R163's words (log entry 10). -/
def Obligations.InternalOperationsFaultOutsideTheirDomain : Prop :=
  ∀ (b : Bank) (p : PatternStore) (decay : Q24) (sr : Nat) (pk : Int) (c t s f w h : Nat) (cell : MelCell) (hit : Bool),
    (¬ (c < 2 ∧ 1 ≤ f ∧ f ≤ 65535 ∧ w ≤ 2) → trigger decay b c f w = .error (.indexRange .trigger)) ∧
    (c ≠ 2 → triggerKick b c = .error (.indexRange .triggerPercussive)) ∧
    (c ≠ 3 → triggerSnare b c = .error (.indexRange .triggerPercussive)) ∧
    (c ≠ 4 → triggerHat b c = .error (.indexRange .triggerPercussive)) ∧
    (2 ≤ c → release b c = .error (.indexRange .release)) ∧
    (5 ≤ c → renderSample sr pk b c = .error (.indexRange .renderSample)) ∧
    (¬ (t < 2 ∧ s < 16 ∧ f ≤ 65535 ∧ w ≤ 2) → setMelodicStep p t s f w = .error (.indexRange .setMelodicStep)) ∧
    (¬ (t < 3 ∧ s < 16 ∧ h ≤ 1) → setDrumStep p t s h = .error (.indexRange .setDrumStep)) ∧
    (¬ (t < 2 ∧ s < 16) → memReadMel p t s = .error (.indexRange .memRead) ∧ memWriteMel p t s cell = .error (.indexRange .memWrite)) ∧
    (¬ (t < 3 ∧ s < 16) → memReadDrum p t s = .error (.indexRange .memRead) ∧ memWriteDrum p t s hit = .error (.indexRange .memWrite)) ∧
    (16 ≤ s → triggerStep decay p b s = .error (.indexRange .triggerStep))

/-- R84 (V-ERR-4): waveform code 3 on an active channel without noise faults; on an active noise channel it is not read. -/
def Obligations.WaveformCodeThreeFaults : Prop :=
  ∀ (sr : Nat) (p : Int) (ch : Channel), ch.wave = 3 → ch.active = true →
    (ch.isNoise = false → ch.render sr p = .error (.waveCode .renderSample)) ∧
    (ch.isNoise = true → ∃ a, ch.render sr p = .ok (a, ch.advanced sr))

/-- R80 to R83 and R85: the amplitude of an active channel, from its record before the sample. -/
def Obligations.RenderedAmplitude : Prop :=
  ∀ (sr : Nat) (v : BitVec 15) (ch : Channel) (a : Int) (ch' : Channel), ch.active = true →
    ch.render sr (peak v) = .ok (a, ch') →
    ∃ w : Int, a = (w * ch.envLevel.toNat).fdiv (2 ^ 24) ∧
      (ch.isNoise = true → w = if ch.lfsr[0] then (v.toNat : Int).fdiv 5 else -(v.toNat : Int).fdiv 5) ∧
      (ch.isNoise = false → ch.wave = 0 → w = if ch.phase.toNat < 2 ^ 31 then (v.toNat : Int).fdiv 5 else -(v.toNat : Int).fdiv 5) ∧
      (ch.isNoise = false → ch.wave = 1 →
        w = -(v.toNat : Int).fdiv 5 + (2 * (v.toNat : Int).fdiv 5 * ch.phase.toNat).fdiv (2 ^ 32)) ∧
      (ch.isNoise = false → ch.wave = 2 → w = if ch.phase.toNat < 2 ^ 30 then (v.toNat : Int).fdiv 5 else -(v.toNat : Int).fdiv 5)

/-- R88 to R93: the record of an active channel after a sample, every product exact. The premise is R41. -/
def Obligations.RenderedRecord : Prop :=
  ∀ (sr : Nat) (p a : Int) (ch ch' : Channel), ch.Ok → ch.active = true → ch.render sr p = .ok (a, ch') →
    (ch'.wave = ch.wave ∧ ch'.envDecay = ch.envDecay ∧ ch'.isNoise = ch.isNoise ∧ ch'.pitchMult = ch.pitchMult) ∧
    (ch'.phase.toNat = if ch.isNoise then ch.phase.toNat
      else (ch.phase.toNat + ch.freq.toNat * 65536 / sr % 2 ^ 32) % 2 ^ 32) ∧
    (ch'.lfsr.toNat = if ch.isNoise then (if ch.lfsr.toNat % 2 = 1 then (ch.lfsr.toNat / 2) ^^^ 0x6000 else ch.lfsr.toNat / 2)
      else ch.lfsr.toNat) ∧
    ch'.envLevel.toNat = ch.envLevel.toNat * ch.envDecay.toNat / 2 ^ 24 ∧
    (ch'.active = true ↔ 16777 ≤ ch'.envLevel.toNat) ∧
    ch'.freq.toNat = if ch.pitchMult = 0x1000000#25 then ch.freq.toNat
      else max (ch.freq.toNat * ch.pitchMult.toNat / 2 ^ 24) (30 * 65536)

/-- R86: an inactive channel renders 0 and does not change. -/
def Obligations.InactiveChannelIsFrozen : Prop :=
  ∀ (sr : Nat) (p : Int) (b : Bank) (c : Fin 5), b[c].active = false → renderSample sr p b c = .ok (0, b)

/-- R97: renderSample reads and writes only its own channel. -/
def Obligations.RenderSampleIsIsolated : Prop :=
  ∀ (sr : Nat) (p : Int) (b1 b2 : Bank) (c : Fin 5) (a : Int) (b1' : Bank), b1[c] = b2[c] → renderSample sr p b1 c = .ok (a, b1') →
    (∀ i : Fin 5, i ≠ c → b1'[i] = b1[i]) ∧
    ∃ b2', renderSample sr p b2 c = .ok (a, b2') ∧ b2'[c] = b1'[c] ∧ ∀ i : Fin 5, i ≠ c → b2'[i] = b2[i]

/-- R98: no sample exceeds the peak, and the peak is at most 6553. The premise is R41. -/
def Obligations.RenderedAmplitudeIsBounded : Prop :=
  ∀ (sr : Nat) (v : BitVec 15) (b : Bank) (c : Fin 5), b.Ok →
    ∃ a b', renderSample sr (peak v) b c = .ok (a, b') ∧ |a| ≤ (v.toNat : Int) / 5 ∧ (v.toNat : Int) / 5 ≤ 6553

/-- R94, R90: a rendered channel's level never rises, and falls strictly while it decays. The premise is R41. -/
def Obligations.EnvelopeNeverRises : Prop :=
  ∀ (sr : Nat) (p a : Int) (ch ch' : Channel), ch.Ok → ch.render sr p = .ok (a, ch') →
    ch'.envLevel.toNat ≤ ch.envLevel.toNat ∧
    (ch.active = true → ch.envDecay.toNat < 2 ^ 24 → 0 < ch.envLevel.toNat → ch'.envLevel.toNat < ch.envLevel.toNat)

/-- R99: the first sample after a trigger, at peak `p`, from the record the trigger leaves. -/
def Obligations.FirstSampleAfterATrigger : Prop :=
  ∀ (sr : Nat) (p : Int) (decay : Q24) (f : Nat) (freq : Word) (wave : WaveCode) (lfsr : BitVec 15),
    (∃ ch, (melodicNote decay f 0 lfsr).render sr p = .ok (p, ch)) ∧
    (∃ ch, (melodicNote decay f 1 lfsr).render sr p = .ok (-p, ch)) ∧
    (∃ ch, (melodicNote decay f 2 lfsr).render sr p = .ok (p, ch)) ∧
    (∃ ch, (kickHit lfsr).render sr p = .ok (p, ch)) ∧
    ∃ ch, (noiseHit decay freq wave).render sr p = .ok (p, ch)

/-- R95: after a Kick trigger the frequency falls strictly at every sample until it is 30 Hz, reaches that at the 2107th sample, and stays there; the
channel is still active then. -/
def Obligations.KickSweepFallsToThirtyHertz : Prop :=
  ∀ (sr : Nat) (p : Int) (lfsr : BitVec 15),
    (∀ k, k < 2107 → ∃ ch ch', samples sr p k (kickHit lfsr) = .ok ch ∧ samples sr p (k + 1) (kickHit lfsr) = .ok ch' ∧
      30 * 65536 < ch.freq.toNat ∧ ch'.freq.toNat < ch.freq.toNat) ∧
    (∀ k, 2107 ≤ k → ∃ ch, samples sr p k (kickHit lfsr) = .ok ch ∧ ch.freq.toNat = 30 * 65536) ∧
    ∃ ch, samples sr p 2107 (kickHit lfsr) = .ok ch ∧ ch.active = true ∧ ch.envLevel.toNat = 8915230

/-- R96: a nonzero noise register never becomes zero; from 0x7FFF bit 0 is set for exactly 14 samples; it returns to 0x7FFF after 32767 steps and not before, so
that is its period (R89); a zero register would output -peak for ever, and neither seed is zero. -/
def Obligations.NoiseRegisterNeverSticks : Prop :=
  (∀ l : BitVec 15, l ≠ 0 → lfsrStep l ≠ 0) ∧
  (∀ k, k < 14 → (lfsrStep^[k] 0x7FFF#15)[0] = true) ∧ (lfsrStep^[14] 0x7FFF#15)[0] = false ∧
  lfsrStep^[32767] 0x7FFF#15 = 0x7FFF#15 ∧ (∀ k, 0 < k → k < 32767 → lfsrStep^[k] 0x7FFF#15 ≠ 0x7FFF#15) ∧
  (∀ (k : Nat) (p : Int), noiseWave p (lfsrStep^[k] 0) = -p) ∧ Config.snareSeed ≠ 0 ∧ Config.hatSeed ≠ 0

/-- R100: how many samples each voice stays active after its trigger, at every VOLUME and SAMPLE_RATE; a melodic voice without decay never ends by itself. -/
def Obligations.RingOutLengths : Prop :=
  ∀ (sr : Nat) (p : Int) (lfsr : BitVec 15) (freq : Word) (wave : WaveCode),
    ((∀ k, k < 22706 → ∃ ch, samples sr p k (kickHit lfsr) = .ok ch ∧ ch.active = true) ∧
      ∃ ch, samples sr p 22706 (kickHit lfsr) = .ok ch ∧ ch.active = false) ∧
    ((∀ k, k < 5733 → ∃ ch, samples sr p k (noiseHit 0xFFB15B#25 freq wave) = .ok ch ∧ ch.active = true) ∧
      ∃ ch, samples sr p 5733 (noiseHit 0xFFB15B#25 freq wave) = .ok ch ∧ ch.active = false) ∧
    ((∀ k, k < 2296 → ∃ ch, samples sr p k (noiseHit 0xFF3B64#25 freq wave) = .ok ch ∧ ch.active = true) ∧
      ∃ ch, samples sr p 2296 (noiseHit 0xFF3B64#25 freq wave) = .ok ch ∧ ch.active = false) ∧
    ∀ (f k : Nat), wave.toNat ≤ 2 → ∃ ch, samples sr p k (melodicNote 0x1000000#25 f wave lfsr) = .ok ch ∧ ch.active = true

/-! ### Steps of the pattern -/

/-- R104 with R73 to R77 and R25: what a step leaves in each of the five channels. The premise is R41. -/
def Obligations.TriggerStepFiresEachTrack : Prop :=
  ∀ (decay : Q24) (p : PatternStore) (b : Bank) (s : Fin 16), p.Ok →
    ∃ b', triggerStep decay p b s = .ok b' ∧
      b'[0] = melodicAfterStep decay p.mel[0][s] b[0] ∧
      b'[1] = melodicAfterStep decay p.mel[1][s] b[1] ∧
      b'[2] = (if p.drum[0][s] then kickHit b[2].lfsr else b[2]) ∧
      b'[3] = (if p.drum[1][s] then noiseHit 0xFFB15B#25 b[3].freq b[3].wave else b[3]) ∧
      b'[4] = (if p.drum[2][s] then noiseHit 0xFF3B64#25 b[4].freq b[4].wave else b[4])

/-! ### Sequencer -/

/-- R109: the length of a step at every legal tempo. -/
def Obligations.StepLengthIsInRange : Prop :=
  ∀ bpm : BitVec 8, 40 ≤ bpm.toNat → bpm.toNat ≤ 240 → 62500 ≤ stepUs bpm ∧ stepUs bpm ≤ 375000 ∧
    stepUs bpm * bpm.toNat ≤ 15000000 ∧ 15000000 < (stepUs bpm + 1) * bpm.toNat

/-- R113, R115 to R118: a due step advances the time reference by the step's length mod 2^32, triggers, notifies under its own index, then advances the
pointer mod 16; nothing else changes. The premise is R41. -/
def Obligations.DueTickFiresOneStep : Prop :=
  ∀ s : State, s.pattern.Ok → s.seq.running = true → 15000000 / s.seq.bpm.toNat ≤ (s.now - s.seq.lastStepTs).toNat →
    ∃ t, clockTick s = .ok t ∧ triggerStep s.params.melodicDecay s.pattern s.live s.seq.currentStep.toNat = .ok t.live ∧
      t = { s with live := t.live, seq := t.seq, trace := s.trace ++ [.notify s.seq.currentStep] } ∧
      t.seq.running = true ∧ t.seq.bpm = s.seq.bpm ∧
      t.seq.lastStepTs.toNat = (s.seq.lastStepTs.toNat + 15000000 / s.seq.bpm.toNat) % 2 ^ 32 ∧
      t.seq.currentStep.toNat = (s.seq.currentStep.toNat + 1) % 16

/-- R113, R121: a tick while Stopped, or before the step is due, does nothing. -/
def Obligations.EarlyOrStoppedTickDoesNothing : Prop :=
  ∀ s : State, s.seq.running = false ∨ (s.now - s.seq.lastStepTs).toNat < 15000000 / s.seq.bpm.toNat → clockTick s = .ok s

/-- R120, R114: with a backlog of m steps, the next m ticks fire one step each, in order, and the one after them nothing. The premise is R41. -/
def Obligations.BacklogIsWorkedOffOneStepPerTick : Prop :=
  ∀ (s : State) (m r : Nat), s.pattern.Ok → s.seq.running = true →
    (s.now - s.seq.lastStepTs).toNat = m * (15000000 / s.seq.bpm.toNat) + r → r < 15000000 / s.seq.bpm.toNat →
    (∀ k, k ≤ m → ∃ t, ticks k s = .ok t ∧ t.trace = s.trace ++ notifications s.seq.currentStep k ∧
      t.seq.lastStepTs = s.seq.lastStepTs + BitVec.ofNat 32 (k * (15000000 / s.seq.bpm.toNat))) ∧
    ∃ t, ticks m s = .ok t ∧ ticks (m + 1) s = .ok t

/-- R121, R115, R119: ticks less than a step apart fire exactly (t_N - T0) div d steps up to the time t_N, with their notifications in order, and the time
reference is T0 + k * d, across any number of wraps of now_us. The premises are R41 and the sequencer just started at T0. -/
def Obligations.TicksBelowAStepApartFireEveryStep : Prop :=
  ∀ (s : State) (base : Word) (ts : List Nat) (last : Nat), s.pattern.Ok → s.seq.Ok → s.seq.running = true → s.seq.lastStepTs = base →
    SpacedBelow (15000000 / s.seq.bpm.toNat) 0 ts → (0 :: ts).getLast? = some last →
    ∃ t, ticksAt base ts s = .ok t ∧
      t.trace = s.trace ++ notifications s.seq.currentStep (last / (15000000 / s.seq.bpm.toNat)) ∧
      t.seq.lastStepTs = base + BitVec.ofNat 32 (last / (15000000 / s.seq.bpm.toNat) * (15000000 / s.seq.bpm.toNat)) ∧
      t.seq.running = true ∧ t.seq.bpm = s.seq.bpm ∧ t.pattern = s.pattern

/-! ### Mixer and export -/

/-- R122 to R126: a frame is the exact sum of the five samples, on both sides; the clamp, which saturates outside 16 bits, changes nothing there.
The premise is R40 and R41. -/
def Obligations.FrameIsTheExactSum : Prop :=
  (∀ acc : Int, (acc ≤ -32768 → clampSample acc = -32768) ∧ (32767 ≤ acc → clampSample acc = 32767) ∧
    (-32768 ≤ acc → acc ≤ 32767 → clampSample acc = acc)) ∧
  ∀ (sr : Nat) (v : BitVec 15) (b : Bank), b.Ok →
    ∃ (f : Frame) (b' : Bank) (a : Fin 5 → Int), mixFrame sr (peak v) b = .ok (f, b') ∧
      (∀ c : Fin 5, b[c].render sr (peak v) = .ok (a c, b'[c])) ∧
      |∑ c, a c| ≤ 32765 ∧ f.left.toInt = ∑ c, a c ∧ f.right = f.left

/-- R138, R47: the 44 header bytes, every field little-endian. -/
def Obligations.WavHeaderLayout : Prop :=
  ∀ (sr n : Nat), sr ≤ 192000 → 36 + n < 2 ^ 32 →
    (wavHeader sr n).length = 44 ∧
    (wavHeader sr n).take 4 = [0x52#8, 0x49#8, 0x46#8, 0x46#8] ∧
    ((wavHeader sr n).drop 8).take 28 =
      [0x57#8, 0x41#8, 0x56#8, 0x45#8, 0x66#8, 0x6D#8, 0x74#8, 0x20#8, 16#8, 0#8, 0#8, 0#8, 1#8, 0#8, 2#8, 0#8] ++
      (((wavHeader sr n).drop 24).take 8 ++ [4#8, 0#8, 16#8, 0#8]) ∧
    ((wavHeader sr n).drop 36).take 4 = [0x64#8, 0x61#8, 0x74#8, 0x61#8] ∧
    (∀ off v, (off, v) ∈ [(4, 36 + n), (24, sr), (28, sr * 4), (40, n)] →
      ∃ b0 b1 b2 b3 : Byte, ((wavHeader sr n).drop off).take 4 = [b0, b1, b2, b3] ∧
        b0.toNat + 2 ^ 8 * b1.toNat + 2 ^ 16 * b2.toNat + 2 ^ 24 * b3.toNat = v)

/-- R130, R133, R134, R135, R139, R47: an opened export sends the header and then exactly the frames of its render, in order, four bytes each, left first,
the low byte first. The render starts from the baseline, which is the reset value of a bank, and for each of N loops and each step 0 to 15 in order
does triggerStep and then exactly sps frames at the peak of VOLUME, the records carried over from step to step and loop to loop; its last records stay in
the scratch bank. The premises are R41, R8 and, for the packets offered, R59. -/
def Obligations.ExportedBytesAreTheRenderedFrames : Prop :=
  ∀ (s : State) (a0 : Word) (rest : List Word), sinkAnswer s = true → s.pattern.Ok → s.params.Ok → (∀ p ∈ s.env.offered, p.wf = true) →
    ∃ fs x t os,
      StepsFrom s (15 * s.params.sampleRate / s.seq.bpm.toNat) State.reset.live
        (List.replicate (clampArg a0 0 255) (List.range 16)).flatten fs x ∧
      exec (.exportWav (a0 :: rest)) s = .next t ∧ t.scratch = x ∧ t.trace = s.trace ++ os ∧
      sinkBytes os = wavHeader s.params.sampleRate (4 * fs.length) ++
        fs.flatMap fun f => [f.left.extractLsb' 0 8, f.left.extractLsb' 8 8, f.right.extractLsb' 0 8, f.right.extractLsb' 8 8]

/-- R133, R135, R137, R184: the bytes of an opened export depend on nothing but the PatternStore, BPM, VOLUME, SAMPLE_RATE, MELODIC_DECAY and N: not on the
live bank, the sequencer, earlier exports or the chunk size. -/
def Obligations.ExportBytesDoNotDependOnLiveState : Prop :=
  ∀ (s1 s2 t1 t2 : State) (args : List Word), s1.pattern = s2.pattern → s1.seq.bpm = s2.seq.bpm → s1.g.volume = s2.g.volume →
    s1.params.sampleRate = s2.params.sampleRate → s1.params.melodicDecay = s2.params.melodicDecay →
    sinkAnswer s1 = true → sinkAnswer s2 = true →
    exec (.exportWav args) s1 = .next t1 → exec (.exportWav args) s2 = .next t2 →
    ∃ os1 os2, t1.trace = s1.trace ++ os1 ∧ t2.trace = s2.trace ++ os2 ∧ sinkBytes os1 = sinkBytes os2

/-- R135: the data goes out in full chunks and at most one shorter, nonempty remainder, and together the writes are the frames in order. -/
def Obligations.DataGoesOutInFullChunks : Prop :=
  ∀ (chunk : Nat) (fs : List Frame), 1 ≤ chunk →
    (dataWrites chunk fs).flatten = fs ∧
    (∀ k w, (dataWrites chunk fs)[k]? = some w → k + 1 < (dataWrites chunk fs).length → w.length = chunk) ∧
    ∀ w ∈ dataWrites chunk fs, 1 ≤ w.length ∧ w.length ≤ chunk

/-- R140: a pattern of rests and no hits exports as zero bytes after the header. The premise on the packets offered is R59. -/
def Obligations.EmptyPatternExportsSilence : Prop :=
  ∀ (s : State) (a0 : Word) (rest : List Word), sinkAnswer s = true → (∀ p ∈ s.env.offered, p.wf = true) →
    (∀ (tr : Fin 2) (st : Fin 16), s.pattern.mel[tr][st].freqHz = 0) → (∀ (d : Fin 3) (st : Fin 16), s.pattern.drum[d][st] = false) →
    ∃ t os, exec (.exportWav (a0 :: rest)) s = .next t ∧ t.trace = s.trace ++ os ∧
      sinkBytes os = wavHeader s.params.sampleRate (4 * (clampArg a0 0 255 * 16 * (15 * s.params.sampleRate / s.seq.bpm.toNat))) ++
        List.replicate (4 * (clampArg a0 0 255 * 16 * (15 * s.params.sampleRate / s.seq.bpm.toNat))) 0

/-! ### Ports and the step -/

/-- R177, R142: a service iteration runs the instruction that the head packet of Q decodes to, on the state with that packet out of Q and the iteration's
time latched; then the packets behind it, the clock tick and the burst. The list of events is the model's own (log entry 2). -/
def Obligations.ServiceStepRunsTheDecodedInstruction : Prop :=
  ∀ (s : State) (now : Word) (es : List PortEvent) (p : Packet) (ps : List Packet) (i : Instr),
    s.env.events = .service now :: es → s.queue = p :: ps → decode p = .ok i →
    step s = andThen (exec i { s with env := { s.env with events := es }, now := now, queue := ps })
      (fun t => andThen (drain ps.length t) tickAndBurst)

/-- R156: with room in Q, a packet offered goes to its tail whatever its content; without room it stays at the port and nothing is lost. The list of packets
offered and the list of events are the model's own (log entry 2). -/
def Obligations.CommandPortAcceptsOrHoldsOff : Prop :=
  ∀ (s : State) (p : Packet) (ps : List Packet) (es : List PortEvent), s.env.offered = p :: ps → p.wf = true →
    s.env.events = .side .cmdAccept :: es →
    (s.queue.length < s.params.queueDepth →
      step s = .next { s with queue := s.queue ++ [p], env := { s.env with offered := ps, events := es } }) ∧
    (s.params.queueDepth ≤ s.queue.length → step s = .next { s with env := { s.env with events := es } })

/-- R157, R170: at the end of a service iteration Q holds only packets accepted after its drain began, those in the order in which they were offered. The
list of packets offered is the model's own (log entry 2). -/
def Obligations.DrainLeavesOnlyLaterPackets : Prop :=
  ∀ (s t : State) (now : Word), service now s = .next t → s.env.offered = t.queue ++ t.env.offered

/-- R38: the readback map, address by address. -/
def Obligations.ReadbackMap : Prop :=
  ∀ s : State,
    readback s 0x000#12 = BitVec.ofNat 32 (s.seq.running.toNat + 16 * s.seq.currentStep.toNat) ∧
    readback s 0x001#12 = s.seq.bpm.zeroExtend 32 ∧ readback s 0x002#12 = s.seq.lastStepTs ∧
    readback s 0x003#12 = s.g.volume.zeroExtend 32 ∧ readback s 0x004#12 = s.g.liveWave.zeroExtend 32 ∧
    readback s 0x005#12 = s.g.exportStatus.zeroExtend 32 ∧ readback s 0x006#12 = BitVec.ofNat 32 (min s.queue.length 31) ∧
    (∀ c : Fin 5,
      readback s (BitVec.ofNat 12 (0x100 + 16 * c.val)) =
        BitVec.ofNat 32 (s.live[c].active.toNat + 2 * s.live[c].isNoise.toNat + 16 * s.live[c].wave.toNat) ∧
      readback s (BitVec.ofNat 12 (0x101 + 16 * c.val)) = s.live[c].phase ∧
      readback s (BitVec.ofNat 12 (0x102 + 16 * c.val)) = s.live[c].freq ∧
      readback s (BitVec.ofNat 12 (0x103 + 16 * c.val)) = s.live[c].envLevel.zeroExtend 32 ∧
      readback s (BitVec.ofNat 12 (0x104 + 16 * c.val)) = s.live[c].envDecay.zeroExtend 32 ∧
      readback s (BitVec.ofNat 12 (0x105 + 16 * c.val)) = s.live[c].pitchMult.zeroExtend 32 ∧
      readback s (BitVec.ofNat 12 (0x106 + 16 * c.val)) = s.live[c].lfsr.zeroExtend 32) ∧
    (∀ (tr : Fin 2) (st : Fin 16), readback s (BitVec.ofNat 12 (0x200 + 16 * tr.val + st.val)) =
      BitVec.ofNat 32 (s.pattern.mel[tr][st].freqHz.toNat + 65536 * s.pattern.mel[tr][st].wave.toNat)) ∧
    ∀ (d : Fin 3) (st : Fin 16), readback s (BitVec.ofNat 12 (0x300 + 16 * d.val + st.val)) =
      BitVec.ofNat 32 s.pattern.drum[d][st].toNat

/-- R39: an address the map does not list reads 0, and a readback, of any address, changes no state of the block: its data leaves at the port. The list of
events and the trace are the model's own (log entry 2). -/
def Obligations.ReadbackIsPureAndUnmappedReadsZero : Prop :=
  ∀ (s : State) (addr : BitVec 12),
    (¬ Mapped addr.toNat → readback s addr = 0) ∧
    ∀ es : List PortEvent, s.env.events = .side (.readback addr) :: es →
      step s = .next { s with env := { s.env with events := es }, trace := s.trace ++ [.rbData addr (readback s addr)] }

/-- R105: SET_MELODIC_STEP then a readback of its cell gives the clamped waveform and frequency. -/
def Obligations.MelodicStepReadsBack : Prop :=
  ∀ (s t : State) (a0 a1 a2 a3 : Word) (rest : List Word), exec (.setMelodicStep (a0 :: a1 :: a2 :: a3 :: rest)) s = .next t →
    readback t (BitVec.ofNat 12 (0x200 + 16 * clampArg a0 0 1 + clampArg a1 0 15)) =
      BitVec.ofNat 32 (clampArg a3 0 2 * 65536 + clampArg a2 0 65535)

/-- R127, R128, R129, R177: every service iteration, whatever the state, ends with one burst: it drains Q, ticks the clock, and then emits exactly
BURST_FRAMES frames, the successive mixFrame frames, in order, of the live bank that the tick leaves, at SAMPLE_RATE and the peak of VOLUME; the burst changes
the live bank, to the one these frames leave, and nothing else. No other AudioOut occurs. -/
def Obligations.EveryServiceEndsWithOneBurst : Prop :=
  ∀ (s t : State) (now : Word), service now s = .next t →
    ∃ (u v : State) (before : List PortOutput) (fs : List Frame), drain s.queue.length { s with now := now } = .next u ∧ clockTick u = .ok v ∧
      v.trace = s.trace ++ before ∧ (∀ gs, PortOutput.audioOut gs ∉ before) ∧
      fs.length = s.params.burstFrames ∧ FramesFrom s.params.sampleRate (peak v.g.volume) v.live fs t.live ∧
      t = { v with live := t.live, trace := s.trace ++ before ++ [.audioOut fs] }

/-- R177, R128: an iteration with Q empty, the sequencer Stopped and no active channel emits BURST_FRAMES frames of (0, 0) and changes nothing else of
the block. The event list, `now` and the trace are the model's own (log entry 2). -/
def Obligations.IdleServiceIsSilent : Prop :=
  ∀ (s : State) (now : Word) (es : List PortEvent), s.env.events = .service now :: es → s.queue = [] → s.seq.running = false →
    (∀ c : Fin 5, s.live[c].active = false) →
    step s = .next { s with env := { s.env with events := es }, now := now,
                            trace := s.trace ++ [.audioOut (List.replicate s.params.burstFrames ⟨0, 0⟩)] }

/-- R42: what reset leaves in the state the spec gives the block. -/
def Obligations.ResetValues : Prop :=
  (∀ c : Fin 5, State.reset.live[c] =
    { phase := 0, freq := 0, wave := 0, envLevel := 0, envDecay := 0x1000000#25, active := false, isNoise := false,
      pitchMult := 0x1000000#25, lfsr := 0x7FFF#15 }) ∧
  State.reset.scratch = State.reset.live ∧
  (∀ (tr : Fin 2) (st : Fin 16), State.reset.pattern.mel[tr][st] = ⟨0, 0⟩) ∧
  (∀ (d : Fin 3) (st : Fin 16), State.reset.pattern.drum[d][st] = false) ∧
  State.reset.seq = { running := false, bpm := 120, currentStep := 0, lastStepTs := 0 } ∧
  State.reset.g = { volume := 16384, liveWave := 0, exportStatus := 0 } ∧ State.reset.queue = []

/-! ### Whole machine -/

/-- R40, R41 at reset, with the ranges of R8 for the parameter values the model chose (log entry 1). -/
def Obligations.ResetMeetsTheInvariant : Prop := State.reset.Inv

/-- R163, R164: from every state that meets the invariant a step answers a next state: no FAULT is raised and nothing is refused. -/
def Obligations.InvariantStatesNeverFault : Prop :=
  ∀ s : State, s.Inv → s.Safe ∧ ∃ t, step s = .next t

/-- R40, R41, with Q and the packets offered whole packets within Q's capacity (R35, R59), the frame buffer below a chunk (R135) and the parameters in range
(R8): every step keeps the invariant. -/
def Obligations.StepKeepsTheInvariant : Prop :=
  ∀ s t : State, s.Inv → step s = .next t → t.Inv

/-- R44, R187: no step writes a parameter, and what has left the block is never taken back. That the parameters and the outputs stand in State is
the model's choice (log entries 1 and 2). -/
def Obligations.StepKeepsParametersAndExtendsTheTrace : Prop :=
  ∀ s t : State, step s = .next t → t.params = s.params ∧ ∃ os, t.trace = s.trace ++ os

/-- R107, R28, R29, R30, R31: which commands write the PatternStore, RUNNING, BPM, and the step pointer and its time stamp. -/
def Obligations.OnlyTheNamedCommandsWritePatternAndSequencer : Prop :=
  ∀ (i : Instr) (s t : State), exec i s = .next t →
    (t.pattern ≠ s.pattern → (∃ args, i = .setMelodicStep args) ∨ (∃ args, i = .setDrumStep args) ∨ i = .seqClear) ∧
    (t.seq.running ≠ s.seq.running → i = .seqStart ∨ i = .seqStop) ∧
    (t.seq.bpm ≠ s.seq.bpm → ∃ args, i = .setBpm args) ∧
    ((t.seq.currentStep ≠ s.seq.currentStep ∨ t.seq.lastStepTs ≠ s.seq.lastStepTs) → i = .seqStart)
end

