-- ==== Sys2Proof/Laws/PerInstr.lean ====
section
/-! SUPPORT. Statements about every instruction as syntax, one lemma per constructor. -/

namespace Sys2Proof

/-- The OPC field of a header word (R60). -/
theorem opcOf_headerOf (opc : BitVec 8) (n : Nat) : opcOf (headerOf opc n) = opc := by
  ext i hi
  simp only [opcOf, headerOf, BitVec.getElem_extractLsb', BitVec.getLsbD_append]
  simp [hi]

/-- The ARGC field of a header word (R60). -/
theorem argcOf_headerOf (opc : BitVec 8) {n : Nat} (h : n < 16) : argcOf (headerOf opc n) = n := by
  have : (headerOf opc n).extractLsb' 8 4 = BitVec.ofNat 4 n := by
    ext i hi
    simp only [headerOf, BitVec.getElem_extractLsb', BitVec.getLsbD_append]
    simp [show ¬ (8 + i < 8) by omega, hi]
  rw [argcOf, this, BitVec.toNat_ofNat]
  omega

end Sys2Proof

namespace Sys2Proof.Laws.PacketForm

/-- The words of a well-formed instruction are a packet (R59): ARGC counts its argument words, OPC is the command's (R60, R63). -/
def Statement (i : Instr) : Prop := i.wf = true → (encode i).wf = true ∧ opcOf (encode i).header = opcode i

/-- The common proof: a command has fewer than sixteen required and optional arguments. -/
theorem of_argument_count {i : Instr} (h : i.required + i.optional < 16) : Statement i := fun hw =>
  have hlen : i.operands.length < 16 := lt_of_le_of_lt (of_decide_eq_true hw) h
  ⟨by simp only [Packet.wf, encode, argcOf_headerOf _ hlen, beq_self_eq_true], opcOf_headerOf _ _⟩

theorem liveNoteOn (args : List Word) : Statement (.liveNoteOn args) :=
  of_argument_count (by show _ < 16; simp only [Instr.required, Instr.optional]; decide)
theorem liveNoteOff (args : List Word) : Statement (.liveNoteOff args) :=
  of_argument_count (by show _ < 16; simp only [Instr.required, Instr.optional]; decide)
theorem setWaveform (args : List Word) : Statement (.setWaveform args) :=
  of_argument_count (by show _ < 16; simp only [Instr.required, Instr.optional]; decide)
theorem setVolume (args : List Word) : Statement (.setVolume args) :=
  of_argument_count (by show _ < 16; simp only [Instr.required, Instr.optional]; decide)
theorem setMelodicStep (args : List Word) : Statement (.setMelodicStep args) :=
  of_argument_count (by show _ < 16; simp only [Instr.required, Instr.optional]; decide)
theorem setDrumStep (args : List Word) : Statement (.setDrumStep args) :=
  of_argument_count (by show _ < 16; simp only [Instr.required, Instr.optional]; decide)
theorem setBpm (args : List Word) : Statement (.setBpm args) :=
  of_argument_count (by show _ < 16; simp only [Instr.required, Instr.optional]; decide)
theorem seqStart : Statement .seqStart := of_argument_count (by decide)
theorem seqStop : Statement .seqStop := of_argument_count (by decide)
theorem seqClear : Statement .seqClear := of_argument_count (by decide)
theorem exportWav (args : List Word) : Statement (.exportWav args) :=
  of_argument_count (by show _ < 16; simp only [Instr.required, Instr.optional]; decide)

end Sys2Proof.Laws.PacketForm
end

