-- ==== Sys2Proof/Machine/Transcriber.lean ====
section
/-! DEFINITION. The text form of a command and the program notation, 30_encoding.md rules R70 and R71. Both stand outside the block (00_scope.md rule
R4 keeps the text forms as assembler-like spellings): the transcriber turns a message into the packet that a control context then offers, and a
program into offered packets and port events. No step calls either. -/

namespace Sys2Proof.Machine

/-- The tokens and their OPC (R63, R70). -/
def tokenTable : List (String × BitVec 8) :=
  [("live-note-on", 0x01#8), ("live-note-off", 0x02#8), ("set-waveform", 0x03#8), ("set-volume", 0x04#8),
   ("set-melodic-step", 0x05#8), ("set-drum-step", 0x06#8), ("set-bpm", 0x07#8), ("sequencer-start", 0x08#8),
   ("sequencer-stop", 0x09#8), ("sequencer-clear", 0x0A#8), ("export", 0x0B#8)]

/-- The OPC of a token; an unknown token has the reserved OPC 0x00 (R70). DESIGN CHOICE (log entry 11): 93_implementation_defined.md item I8 says that the
transcriber refuses a line with an unknown token; the model follows R70. Safe: the transcriber stands outside the block, which drops OPC 0x00 (R66). -/
def tokenOpcode (token : List Char) : BitVec 8 :=
  match tokenTable.find? fun r => r.1.toList == token with
  | some r => r.2
  | none => 0x00#8

/-- The parts of a message between its commas, never an empty list. -/
def splitCommas : List Char → List (List Char)
  | [] => [[]]
  | c :: cs =>
    match splitCommas cs with
    | [] => [[c]]
    | w :: ws => if c = ',' then [] :: w :: ws else (c :: w) :: ws

/-- Decimal digits as a number, the digits read so far in `acc`. -/
def readDigits (acc : Nat) : List Char → Option Nat
  | [] => some acc
  | c :: cs => if c.isDigit then readDigits (10 * acc + (c.toNat - '0'.toNat)) cs else none

/-- A decimal integer, optionally with a leading minus sign (R70). -/
def readInt : List Char → Option Int
  | [] => none
  | '-' :: [] => none
  | '-' :: cs => (readDigits 0 cs).map fun n => -(n : Int)
  | cs => (readDigits 0 cs).map fun n => (n : Int)

/-- An argument word: a decimal integer in [-2^31, 2^31 - 1] as 32-bit two's complement (R70). -/
def readArg (cs : List Char) : Option Word :=
  match readInt cs with
  | some v => if -2 ^ 31 ≤ v ∧ v < 2 ^ 31 then some (BitVec.ofInt 32 v) else none
  | none => none

/-- The argument words, none where one of them cannot be read. -/
def readArgs : List (List Char) → Option (List Word)
  | [] => some []
  | a :: rest =>
    match readArg a, readArgs rest with
    | some w, some ws => some (w :: ws)
    | _, _ => none

/-- `<token>[,<arg>]*` as a packet (R70); none where the message is dropped before it reaches the block. A message with more than 15 arguments is no
packet of R59 and is dropped too (log entry 7). -/
def transcribe (message : List Char) : Option Packet :=
  match splitCommas message with
  | [] => none
  | token :: parts =>
    match readArgs parts with
    | some args => if args.length ≤ 15 then some ⟨headerOf (tokenOpcode token) args.length, args⟩ else none
    | none => none

/-- A program line's port event, after the packets the program offers (R71): a command line is offered and accepted, `svc` is a service iteration, `rb` a
readback. -/
def addLine (line : ProgramLine) (e : Env) : Env :=
  match line with
  | .command p => { e with offered := e.offered ++ [p], events := e.events ++ [.side .cmdAccept] }
  | .svc now => { e with events := e.events ++ [.service now] }
  | .rb addr => { e with events := e.events ++ [.side (.readback addr)] }

/-- A program (R71) as the outside agents' next moves, after those already listed. -/
def withProgram (lines : List ProgramLine) (s : State) : State :=
  s.withEnv (lines.foldl (fun e l => addLine l e) s.env)

end Sys2Proof.Machine
end

