-- ==== Sys2Proof/Tests/Slice0.lean ====
section
/-! SUPPORT. Tests on fixed values, expected results from spec/ (95_test_vectors.md unless a comment names another file), and one named witness for the
hypotheses of every obligation that has some. -/

namespace Sys2Proof.Tests

open Sys2Proof Sys2Proof.Machine Sys2Proof.Certificates

/-! ### Small states -/

/-- Reset, one frame a burst, so that a step renders little. -/
def quiet : State := { State.reset with params := { Params.reset with burstFrames := 1 } }

/-- A step that drains these packets at the given time. -/
def drained (now : Word) (ps : List Packet) (s : State) : Result :=
  step { s with queue := ps, env := { s.env with events := [.service now] } }

/-- A field of the next state. -/
def field {α : Type} (f : State → α) (o : Result) : Option α :=
  match o with
  | .next s => some (f s)
  | _ => none

/-- Why there is no next state. -/
def refusal (o : Result) : Option Refusal :=
  match o with
  | .refused r => some r
  | _ => none

def isNext (o : Result) : Bool := (field (fun _ => ()) o).isSome

theorem exists_next {o : Result} (h : isNext o = true) : ∃ t, o = .next t := by
  cases o with
  | next t => exact ⟨t, rfl⟩
  | fault r => cases h
  | refused r => cases h

/-- The sequencer Running at a step, the tempo 120 (95_test_vectors.md V-SQ). -/
def running (now last : Word) (step : BitVec 4) : State :=
  { quiet with now := now, seq := { running := true, bpm := 120, currentStep := step, lastStepTs := last } }

/-- A storage session to come. -/
def withSession (opens : Bool) (s : State) : State := { s with env := { s.env with sessions := [⟨opens, []⟩] } }

/-- A storage session with events of the other ports inside, and SEQ_STOP offered: before SinkOpen a readback of the fill of Q, before the next own event
CmdAccept, before the one after it the readback again, before the fourth one of EXPORT_STATUS. -/
def withEvents (opens : Bool) (s : State) : State :=
  { s with env := { s.env with offered := [⟨9, []⟩],
                               sessions := [⟨opens, [[.readback 6], [.cmdAccept], [.readback 6], [.readback 5]]⟩] } }

/-- The outputs with each write shown by its length. -/
def brief (os : List PortOutput) : List (PortOutput ⊕ Nat) :=
  os.map fun o => match o with
    | .sinkWrite bs => .inr bs.length
    | o => .inl o

/-- A bank with Lead sounding at 440 Hz. -/
def leadBank : Bank := Vector.set Bank.reset 0 (melodicNote 0x1000000#25 440 0 0x7FFF#15)

/-! ### Well-formedness: each check refuses an ill-formed term -/

theorem test_wf_refuses_extra_operands :
    (Instr.liveNoteOn [1, 0, 0]).wf = false ∧ (Instr.liveNoteOff [0, 0]).wf = false ∧ (Instr.setWaveform [1, 0]).wf = false ∧
    (Instr.setVolume [1, 0]).wf = false ∧ (Instr.setMelodicStep [0, 0, 440, 0, 0]).wf = false ∧
    (Instr.setDrumStep [0, 0, 1, 0]).wf = false ∧ (Instr.setBpm [120, 0]).wf = false ∧ (Instr.exportWav [1, 0]).wf = false := by decide

theorem test_wf_takes_full_and_short_operands :
    (Instr.liveNoteOn [440, 1]).wf = true ∧ (Instr.setMelodicStep [0]).wf = true ∧ Instr.seqClear.wf = true := by decide

theorem test_packet_wf_counts_words :
    (Packet.mk 0x00000105#32 []).wf = false ∧ (Packet.mk 0x00000005#32 [0]).wf = false ∧ (Packet.mk 0x00000105#32 [0]).wf = true := by decide

theorem test_ill_formed_packet_is_refused :
    decode ⟨0x00000105#32, []⟩ = .error (.wordCount 1 0) ∧
    refusal (drained 0 [⟨0x00000105#32, []⟩] quiet) = some (.notAPacket 1 0) := by decide

/-! ### Decoding: words written out from 30_encoding.md rules R60 and R63 -/

theorem test_decode_liveNoteOn : decode ⟨0x00000201#32, [0x000000DC#32, 0x00000007#32]⟩ = .ok (.liveNoteOn [220, 7]) := by decide
theorem test_decode_liveNoteOff : decode ⟨0x00000002#32, []⟩ = .ok (.liveNoteOff []) ∧
    decode ⟨0x00000102#32, [1]⟩ = .ok (.liveNoteOff [1]) := by decide
theorem test_decode_setWaveform : decode ⟨0x00000103#32, [5]⟩ = .ok (.setWaveform [5]) := by decide
theorem test_decode_setVolume : decode ⟨0x00000104#32, [0x00009C40#32]⟩ = .ok (.setVolume [40000]) := by decide
theorem test_decode_setMelodicStep : decode ⟨0x00000405#32, [0, 0, 0x000001B8#32, 0]⟩ = .ok (.setMelodicStep [0, 0, 440, 0]) := by decide
theorem test_decode_setDrumStep : decode ⟨0x00000306#32, [0, 1, 1]⟩ = .ok (.setDrumStep [0, 1, 1]) := by decide
theorem test_decode_setBpm : decode ⟨0x00000107#32, [0xFFFFFFF9#32]⟩ = .ok (.setBpm [BitVec.ofInt 32 (-7)]) := by decide
theorem test_decode_seqStart : decode ⟨0x00000008#32, []⟩ = .ok .seqStart := by decide
theorem test_decode_seqStop : decode ⟨0x00000009#32, []⟩ = .ok .seqStop := by decide
theorem test_decode_seqClear : decode ⟨0x0000000A#32, []⟩ = .ok .seqClear := by decide
theorem test_decode_exportWav : decode ⟨0x0000010B#32, [2]⟩ = .ok (.exportWav [2]) := by decide
/-- V-ENC-5, V-ENC-6, V-ENC-7. -/
theorem test_decode_reserved_bits_surplus_and_short :
    decode ⟨0xABCDE107#32, [120]⟩ = .ok (.setBpm [120]) ∧ decode ⟨0x00000207#32, [200, 5]⟩ = .ok (.setBpm [200]) ∧
    decode ⟨0x00000005#32, []⟩ = .ok (.setMelodicStep []) := by decide
/-- V-ENC-3, V-ENC-4 and the last reserved opcode (R66). -/
theorem test_decode_reserved_opcodes :
    decode ⟨0x0000000C#32, []⟩ = .error (.reservedOpcode 0x0C) ∧ decode ⟨0x00000000#32, []⟩ = .error (.reservedOpcode 0x00) ∧
    decode ⟨0x000000FF#32, []⟩ = .error (.reservedOpcode 0xFF) := by decide
/-- The whole instruction as one number, bit 0 the least significant bit of H: set-bpm with A[0] in bits 63 to 32. -/
theorem test_decodeTableWord :
    decodeTableWord 64 0x0000007800000107 = some (.setBpm [120]) ∧ decodeTableWord 8 0x0B = some (.exportWav []) ∧
    decodeTableWord 8 0x0C = none := by decide
theorem test_encode : encode (.setMelodicStep [0, 0, 440, 0]) = ⟨0x00000405#32, [0, 0, 0x000001B8#32, 0]⟩ := by decide
theorem test_step_runs_table_word : field (fun t => t.seq.running) (step (quiet.withFetchWord 8 0x08)) = some true := by decide

/-! ### The text form (R70) and the program notation (R71) -/

theorem test_transcribe_setMelodicStep :
    transcribe "set-melodic-step,0,0,440,0".toList = some ⟨0x00000405#32, [0, 0, 0x000001B8#32, 0]⟩ := by decide
theorem test_transcribe_negative : transcribe "set-bpm,-7".toList = some ⟨0x00000107#32, [0xFFFFFFF9#32]⟩ := by decide
theorem test_transcribe_unknown_token : transcribe "reboot,1".toList = some ⟨0x00000100#32, [1]⟩ := by decide
theorem test_transcribe_bad_argument :
    transcribe "set-bpm,x".toList = none ∧ transcribe "set-bpm,2147483648".toList = none ∧
    transcribe "set-bpm,-2147483648".toList = some ⟨0x00000107#32, [0x80000000#32]⟩ := by decide
theorem test_program_lines :
    (withProgram [.command ⟨8, []⟩, .svc 0, .rb 6] quiet).env.events = [.side .cmdAccept, .service 0, .side (.readback 6)] := by decide

/-! ### Commands -/

/-- V-CMD-1: channel 7 is clamped to 1. The burst has advanced the phase by one sample, inc = 220 * 2^32 div 16000. -/
theorem test_liveNoteOn_channel :
    field (fun t => (t.live[1].freq, t.live[1].active, t.live[1].envLevel, t.live[0].active)) (drained 0 [⟨0x00000201#32, [220, 7]⟩] quiet) =
      some (0x00DC0000#32, true, 0x1000000#25, false) := by decide
/-- V-CMD-2: a negative frequency releases. -/
theorem test_liveNoteOn_negative :
    field (fun t => (t.live[0].active, t.live[0].envLevel)) (exec (.liveNoteOn [0xFFFFFFFB#32]) { quiet with live := leadBank }) =
      some (false, 0) := by decide
/-- V-CB-14: release keeps PHASE and FREQ. -/
theorem test_liveNoteOff :
    field (fun t => (t.live[0].active, t.live[0].envLevel, t.live[0].freq)) (exec (.liveNoteOff []) { quiet with live := leadBank }) =
      some (false, 0, 0x01B80000#32) := by decide
/-- E-3, and R145's second example. -/
theorem test_setWaveform :
    field (fun t => readback t 4) (drained 0 [⟨0x00000103#32, [5]⟩] quiet) = some 2 ∧
    field (fun t => t.g.liveWave) (exec (.setWaveform [0xFFFFFFFF#32]) quiet) = some 0 := by decide
/-- V-CMD-4. -/
theorem test_setVolume :
    field (fun t => t.g.volume) (exec (.setVolume [40000]) quiet) = some 32767 ∧
    field (fun t => t.g.volume) (exec (.setVolume [0xFFFFFFFF#32]) quiet) = some 0 := by decide
/-- V-CMD-5. -/
theorem test_setMelodicStep :
    field (fun t => readback t 0x21F) (drained 0 [⟨0x00000405#32, [7, 99, 440, 9]⟩] quiet) = some 0x000201B8#32 := by decide
/-- V-CMD-6, and E-4: one operand is too few. -/
theorem test_setDrumStep :
    field (fun t => (readback t 0x320, t.queue)) (drained 0 [⟨0x00000306#32, [5, 0xFFFFFFFD#32, 9]⟩] quiet) = some (1, []) ∧
    field (fun t => (t.pattern, t.queue)) (drained 0 [⟨0x00000106#32, [1]⟩] quiet) = some (quiet.pattern, []) := by decide
/-- V-ENC-2, V-CMD-7. -/
theorem test_setBpm :
    field (fun t => readback t 1) (drained 0 [⟨0x00000107#32, [0xFFFFFFF9#32]⟩] quiet) = some 40 ∧
    field (fun t => t.seq.bpm) (exec (.setBpm [300]) quiet) = some 240 := by decide
/-- R150's example. -/
theorem test_seqStart :
    field (fun t => (readback t 0, readback t 2)) (drained 500000 [⟨8, []⟩] quiet) = some (1, 500000) := by decide
/-- V-SQ-7. -/
theorem test_seqStop :
    field (fun t => (readback t 0, t.live[0].active)) (drained 0 [⟨9, []⟩] { running 0 0 3 with live := leadBank }) = some (0x30, false) := by decide
/-- V-CMD-9. -/
theorem test_seqClear :
    field (fun t => (t.pattern.drum[0][0], t.seq.running, t.seq.currentStep, t.live[0].active))
      (exec .seqClear { running 0 0 5 with live := leadBank, pattern := { quiet.pattern with drum := Vector.replicate 3 (Vector.replicate 16 true) } }) =
      some (false, true, 5, false) := by decide
/-- V-EX-3: no loops, a 44-byte header whose sizes are 36 and 0. -/
theorem test_export_no_loops :
    field (fun t => (sinkBytes t.trace, t.g.exportStatus)) (exec (.exportWav [0]) (withSession true quiet)) =
      some ([0x52, 0x49, 0x46, 0x46, 36, 0, 0, 0, 0x57, 0x41, 0x56, 0x45, 0x66, 0x6D, 0x74, 0x20, 16, 0, 0, 0, 1, 0, 2, 0,
             0x80, 0x3E, 0, 0, 0, 0xFA, 0, 0, 4, 0, 16, 0, 0x64, 0x61, 0x74, 0x61, 0, 0, 0, 0], 1) := by decide
/-- V-EX-4. -/
theorem test_export_open_failure :
    field (fun t => (t.trace, t.g.exportStatus)) (exec (.exportWav [2]) (withSession false quiet)) =
      some ([.sinkOpen false, .exportDone 2], 2) := by decide

/-- R135, R171: sixteen frames in chunks of twelve; a readback between two SinkWrites sees the packet accepted before, EXPORT_STATUS is still the old one. -/
theorem test_export_interleaves :
    field (fun t => (brief t.trace, t.queue, t.env.offered))
      (exec (.exportWav [1]) (withEvents true { quiet with params := { quiet.params with sampleRate := 16, chunkFrames := 12 },
                                                           seq := { quiet.seq with bpm := 240 } })) =
      some ([.inl (.rbData 6 0), .inl (.sinkOpen true), .inr 44, .inl (.rbData 6 1), .inr 48, .inl (.rbData 5 0), .inr 16, .inl .sinkClose,
             .inl (.exportDone 1)], [⟨9, []⟩], []) := by decide
/-- R131, R171: the same events inside an export that does not open. -/
theorem test_open_failure_interleaves :
    field (fun t => (t.trace, t.queue)) (exec (.exportWav [1]) (withEvents false quiet)) =
      some ([.rbData 6 0, .sinkOpen false, .exportDone 2], [⟨9, []⟩]) := by decide

/-! ### Datapath, sequencer, mixer, ports -/

/-- V-CB-4: samples 0, 1 and 8 of the sawtooth at 1000 Hz, peak 6553; V-CB-16 at peak 20. -/
theorem test_sawtooth :
    sawtoothWave 6553 0#32 = -6553 ∧ sawtoothWave 6553 0x10000000#32 = -5734 ∧ sawtoothWave 6553 0x80000000#32 = 0 ∧
    sawtoothWave 20 0xFFFFFFFF#32 = 19 := by decide
/-- V-CB-12: the envelope rounds toward minus infinity. -/
theorem test_envelope_rounds_down :
    applyEnvelope (-6553) 0xFFEC57#25 = -6552 ∧ applyEnvelope 6553 0xFFEC57#25 = 6551 ∧ applyEnvelope (-6553) 16777#25 = -7 := by decide
/-- V-CB-9. -/
theorem test_lfsr : lfsrStep 0x7FFF#15 = 0x5FFF#15 ∧ lfsrStep 0x4001#15 = 0x4000#15 ∧ lfsrStep 0x4000#15 = 0x2000#15 := by decide
/-- V-CB-15: the phase increment, and where it wraps. -/
theorem test_phase_increment :
    phaseInc 16000 0x01B80000#32 = 0x070A3D70#32 ∧ phaseInc 16000 0x3E800000#32 = 0#32 ∧ phaseInc 16000 0xFFFF0000#32 = 0x188F5C28#32 := by decide
/-- V-CB-6: levels and frequencies of the Kick's first samples. -/
theorem test_kick :
    decayLevel 0xFFEC57#25 Config.kickDecay = 0xFFD8AF#25 ∧ sweepFreq 0x00C7D1EB#32 Config.kickPitchMult = 0x00C7A3E1#32 := by decide
/-- V-ERR-4. -/
theorem test_faults :
    trigger 0x1000000#25 Bank.reset 3 440 0 = .error (.indexRange .trigger) ∧
    renderSample 16000 6553 (Vector.set leadBank 0 { leadBank[0] with wave := 3 }) 0 = .error (.waveCode .renderSample) := by decide
/-- V-SQ-1. -/
theorem test_stepUs : stepUs 40 = 375000 ∧ stepUs 41 = 365853 ∧ stepUs 70 = 214285 ∧ stepUs 240 = 62500 := by decide
/-- V-SQ-6: the clock across the wrap of now_us, just before the step is due and when it is. -/
theorem test_clock_wraps :
    (clockTick (running 0x0000E847#32 0xFFFF0000#32 0)).map (fun t => t.trace) = .ok [] ∧
    (clockTick (running 0x0000E848#32 0xFFFF0000#32 0)).map (fun t => (t.seq.lastStepTs, t.seq.currentStep, t.trace)) =
      .ok (0x0000E848#32, 1, [.notify 0]) := by decide
/-- V-SQ-9: the step after 15 is 0. -/
theorem test_step_pointer_wraps :
    (clockTick (running 125000 0 15)).map (fun t => (t.seq.currentStep, t.trace)) = .ok (0, [.notify 15]) := by decide
/-- V-MX-2: Lead square, Bass sawtooth, Kick, Snare and Hat just triggered, peak 6553. -/
theorem test_mix_of_all_five :
    (mixFrame 16000 6553 #v[melodicNote 0x1000000#25 440 0 0x7FFF#15, melodicNote 0x1000000#25 110 1 0x7FFF#15, kickHit 0x7FFF#15,
      noiseHit Config.snareDecay 0 0, noiseHit Config.hatDecay 0 0]).map (fun x => (x.1.left.toInt, x.1.right.toInt)) = .ok (19659, 19659) := by decide
/-- V-MX-3. -/
theorem test_clamp : clampSample 40000 = 32767 ∧ clampSample (-40000) = -32768 ∧ clampSample 32767 = 32767 := by decide
/-- V-EX-2, and 20_memory.md rule R47. -/
theorem test_sizes_and_bytes :
    samplesPerStep 44100 120 = 5512 ∧ frameBytes ⟨0x1998#16, 0x1998#16⟩ = [0x98, 0x19, 0x98, 0x19] ∧ leBytes 4 256036 = [0x24, 0xE8, 3, 0] := by decide
/-- V-CMD-10: a full queue holds the packet off. -/
theorem test_full_queue :
    field (fun t => (t.queue.length, t.env.offered.length))
      (step { quiet with queue := List.replicate 8 ⟨8, []⟩, env := { Env.reset with offered := [⟨9, []⟩], events := [.side .cmdAccept] } }) =
      some (8, 1) := by decide
/-- 10_state.md rules R38 and R39. -/
theorem test_readback_map :
    readback quiet 0x003 = 16384 ∧ readback quiet 0x104 = 0x01000000#32 ∧ readback quiet 0x146 = 0x7FFF#32 ∧ readback quiet 0x107 = 0 ∧
    readback quiet 0x150 = 0 ∧ readback quiet 0x330 = 0 := by decide

/-! ### Witnesses: the hypotheses of each obligation can be met -/

theorem witness_DecodeOfEncodeIsTheInstruction :
    (Instr.setMelodicStep [0x80000000#32, 0xFFFFFFFF#32, 0, 0x7FFFFFFF#32]).wf = true ∧ (Instr.liveNoteOn []).wf = true := by decide

theorem witness_DecodeIgnoresReservedHeaderBits : (0xABCDE107#32).extractLsb' 0 12 = (0x00000107#32).extractLsb' 0 12 := by decide

theorem witness_DecodeIgnoresSurplusArguments :
    (Instr.setBpm [200]).operands.length = (Instr.setBpm [200]).required + (Instr.setBpm [200]).optional ∧
    (Instr.setBpm [200]).operands.length + (List.replicate 14 (0 : Word)).length ≤ 15 := by decide

theorem witness_ReservedOpcodeIsDropped :
    (∀ p ∈ [Packet.mk 0 [], Packet.mk 0x0C [], Packet.mk 0x000001FF#32 [0]], p.wf = true ∧ Reserved (opcOf p.header)) ∧
    ¬ Reserved 0x0B := by
  unfold Reserved; decide

theorem witness_PacketLengthComesFromArgcAlone :
    (Packet.mk 0 []).wf = true ∧ (Packet.mk 0x00000FFF#32 (List.replicate 15 0)).wf = true := by decide

theorem witness_ShortCommandIsDropped :
    ∀ i ∈ [Instr.liveNoteOn [], .setWaveform [], .setVolume [], .setMelodicStep [0, 0, 0], .setDrumStep [0, 0], .setBpm [], .exportWav []],
      i.operands.length < i.required := by decide

theorem witness_ArgumentsAreClampedToTheNearerBound :
    40 ≤ 240 ∧ (40#32).toInt ≤ (40 : Nat) ∧ ((240 : Nat) : Int) ≤ (240#32).toInt ∧ (0x80000000#32).toInt ≤ (40 : Nat) ∧
    ((40 : Nat) : Int) ≤ (120#32).toInt ∧ (120#32).toInt ≤ (240 : Nat) := by decide

theorem witness_LiveNoteOnTriggersOrReleasesItsChannel :
    quiet.g.liveWave.toNat ≤ 2 ∧ ({ quiet.g with liveWave := 2 } : Globals).liveWave.toNat ≤ 2 := by decide

theorem witness_ExportOpenFailureOnlyReports :
    sinkAnswer (withEvents false quiet) = false ∧ ∀ p ∈ (withEvents false quiet).env.offered, p.wf = true := by decide

/-- The premises of ExportWritesTheWholeFile, ExportedBytesAreTheRenderedFrames and EmptyPatternExportsSilence. -/
theorem witness_opened_export :
    sinkAnswer (withEvents true quiet) = true ∧ (withEvents true quiet).pattern.Ok ∧ (withEvents true quiet).params.Ok ∧
    (∀ p ∈ (withEvents true quiet).env.offered, p.wf = true) ∧
    (∀ (tr : Fin 2) (st : Fin 16), (withEvents true quiet).pattern.mel[tr][st].freqHz = 0) ∧
    ∀ (d : Fin 3) (st : Fin 16), (withEvents true quiet).pattern.drum[d][st] = false := by decide

theorem witness_LiveNoteCommandsKeepAllElse :
    (∃ t, exec (.liveNoteOn [440, 1]) quiet = .next t) ∧ (∃ t, exec (.liveNoteOn []) quiet = .next t) ∧ ∃ t, exec (.liveNoteOff [1]) quiet = .next t :=
  ⟨exists_next (by decide), exists_next (by decide), exists_next (by decide)⟩

theorem witness_SettingCommandsKeepAllElse :
    (∃ t, exec (.setWaveform [1]) quiet = .next t) ∧ (∃ t, exec (.setVolume [1]) quiet = .next t) ∧ (∃ t, exec (.setBpm []) quiet = .next t) ∧
    ∃ t, exec .seqStart quiet = .next t :=
  ⟨exists_next (by decide), exists_next (by decide), exists_next (by decide), exists_next (by decide)⟩

theorem witness_PatternAndStopCommandsKeepAllElse :
    (∃ t, exec (.setMelodicStep [1, 15, 110, 1]) quiet = .next t) ∧ (∃ t, exec (.setDrumStep [2, 15, 1]) quiet = .next t) ∧
    (∃ t, exec .seqClear quiet = .next t) ∧ ∃ t, exec .seqStop quiet = .next t :=
  ⟨exists_next (by decide), exists_next (by decide), exists_next (by decide), exists_next (by decide)⟩

theorem witness_ExportKeepsLiveState :
    (∃ t, exec (.exportWav [0]) (withEvents true quiet) = .next t) ∧ (∃ t, exec (.exportWav [2]) (withSession false quiet) = .next t) ∧
    ∃ t, exec (.exportWav []) quiet = .next t :=
  ⟨exists_next (by decide), exists_next (by decide), exists_next (by decide)⟩

/-- Each clause of InternalOperationsFaultOutsideTheirDomain, just outside the domain. -/
theorem witness_InternalOperationsFaultOutsideTheirDomain :
    ¬ (2 < 2 ∧ 1 ≤ 1 ∧ 1 ≤ 65535 ∧ 0 ≤ 2) ∧ ¬ (1 < 2 ∧ 1 ≤ 0 ∧ 0 ≤ 65535 ∧ 2 ≤ 2) ∧ ¬ (1 < 2 ∧ 1 ≤ 65536 ∧ 65536 ≤ 65535 ∧ 2 ≤ 2) ∧
    ¬ (0 < 2 ∧ 1 ≤ 1 ∧ 1 ≤ 65535 ∧ 3 ≤ 2) ∧ 3 ≠ 2 ∧ 4 ≠ 3 ∧ 3 ≠ 4 ∧ 2 ≤ 2 ∧ 5 ≤ 5 ∧ ¬ (1 < 2 ∧ 16 < 16 ∧ 0 ≤ 65535 ∧ 0 ≤ 2) ∧
    ¬ (2 < 3 ∧ 15 < 16 ∧ 2 ≤ 1) ∧ ¬ (2 < 2 ∧ 15 < 16) ∧ ¬ (3 < 3 ∧ 15 < 16) ∧ 16 ≤ 16 := by decide

/-- A record with the reserved waveform code, with and without noise. -/
theorem witness_WaveformCodeThreeFaults :
    (∃ ch : Channel, ch.wave = 3 ∧ ch.active = true ∧ ch.isNoise = false) ∧ ∃ ch : Channel, ch.wave = 3 ∧ ch.active = true ∧ ch.isNoise = true :=
  ⟨⟨{ melodicNote 0x1000000#25 440 0 0 with wave := 3 }, by decide⟩, ⟨noiseHit 0x1000000#25 0 3, by decide⟩⟩

/-- An active good record for each source of sound, rendered: the premises of RenderedAmplitude, RenderedRecord and EnvelopeNeverRises. -/
theorem witness_rendered_sample :
    ∀ ch ∈ [melodicNote 0x1000000#25 440 0 1, melodicNote 0xFFFFFF#25 65535 1 1, melodicNote 1#25 1 2 1, kickHit 1, noiseHit 0xFF3B64#25 0 0],
      ch.Ok ∧ ch.active = true ∧ 0 < ch.envLevel.toNat ∧ ((ch.render 16000 (peak 32767)).toOption.isSome = true) := by decide

theorem witness_EnvelopeNeverRises_decaying : (kickHit 1).envDecay.toNat < 2 ^ 24 := by decide

theorem witness_InactiveChannelIsFrozen : ∀ c : Fin 5, Bank.reset[c].active = false := by decide

theorem witness_RenderSampleIsIsolated :
    leadBank[(0 : Fin 5)] = (Vector.set leadBank 1 (noiseHit 1 0 0))[(0 : Fin 5)] ∧ ((renderSample 16000 6553 leadBank 0).toOption.isSome = true) := by
  decide

/-- The premise of RenderedAmplitudeIsBounded and of FrameIsTheExactSum. -/
theorem witness_good_bank : Bank.reset.Ok ∧ leadBank.Ok := by decide

theorem witness_FrameIsTheExactSum_clamp :
    (-32768 : Int) ≤ -32768 ∧ (32767 : Int) ≤ 32767 ∧ (-32768 : Int) ≤ -32768 ∧ (-32768 : Int) ≤ 32767 := by decide

theorem witness_KickSweepFallsToThirtyHertz : 2106 < 2107 ∧ 2107 ≤ 2107 := by decide

theorem witness_NoiseRegisterNeverSticks : (1#15 : BitVec 15) ≠ 0 ∧ 13 < 14 ∧ 0 < 1 ∧ 1 < 32767 ∧ 0 < 32766 ∧ 32766 < 32767 := by decide

theorem witness_RingOutLengths : 22705 < 22706 ∧ 5732 < 5733 ∧ 2295 < 2296 ∧ (2 : WaveCode).toNat ≤ 2 := by decide

theorem witness_TriggerStepFiresEachTrack : PatternStore.reset.Ok := by decide

theorem witness_StepLengthIsInRange : ∀ bpm ∈ [(40 : BitVec 8), 240], 40 ≤ bpm.toNat ∧ bpm.toNat ≤ 240 := by decide

/-- V-SQ-2: the step is due at exactly one step length. -/
theorem witness_DueTickFiresOneStep :
    (running 125000 0 0).pattern.Ok ∧ (running 125000 0 0).seq.running = true ∧
    15000000 / (running 125000 0 0).seq.bpm.toNat ≤ ((running 125000 0 0).now - (running 125000 0 0).seq.lastStepTs).toNat := by decide

theorem witness_EarlyOrStoppedTickDoesNothing :
    quiet.seq.running = false ∧
    ((running 124999 0 0).now - (running 124999 0 0).seq.lastStepTs).toNat < 15000000 / (running 124999 0 0).seq.bpm.toNat := by decide

/-- V-SQ-3: a backlog of three steps and 25000 µs. -/
theorem witness_BacklogIsWorkedOffOneStepPerTick :
    (running 400000 0 0).pattern.Ok ∧ (running 400000 0 0).seq.running = true ∧
    ((running 400000 0 0).now - (running 400000 0 0).seq.lastStepTs).toNat = 3 * (15000000 / (running 400000 0 0).seq.bpm.toNat) + 25000 ∧
    25000 < 15000000 / (running 400000 0 0).seq.bpm.toNat := by decide

/-- Three ticks, each as late as may be, across the wrap of now_us. -/
theorem witness_TicksBelowAStepApartFireEveryStep :
    (running 0 0xFFFF0000#32 0).pattern.Ok ∧ (running 0 0xFFFF0000#32 0).seq.Ok ∧ (running 0 0xFFFF0000#32 0).seq.running = true ∧
    (running 0 0xFFFF0000#32 0).seq.lastStepTs = 0xFFFF0000#32 ∧
    SpacedBelow (15000000 / (running 0 0xFFFF0000#32 0).seq.bpm.toNat) 0 [124999, 249998, 374997] ∧
    (0 :: [124999, 249998, 374997]).getLast? = some 374997 := by
  refine ⟨by decide, by decide, by decide, by decide, ?_, by decide⟩
  unfold SpacedBelow SpacedBelow SpacedBelow SpacedBelow
  decide

/-- An opened export of one loop has data writes before and at its end: both clauses of ExportWritesTheWholeFile on them (12 frames, then 4). -/
theorem witness_ExportWritesTheWholeFile_writes :
    (dataWrites 12 (List.replicate 16 ⟨0, 0⟩)).map List.length = [12, 4] ∧ (dataWrites 8 (List.replicate 16 ⟨0, 0⟩)).map List.length = [8, 8] := by decide

theorem witness_WavHeaderLayout : 192000 ≤ 192000 ∧ 36 + 4294967259 < 2 ^ 32 := by decide

theorem witness_ExportBytesDoNotDependOnLiveState :
    quiet.pattern = ({ quiet with live := leadBank } : State).pattern ∧ quiet.seq.bpm = ({ quiet with live := leadBank } : State).seq.bpm ∧
    quiet.g.volume = ({ quiet with live := leadBank } : State).g.volume ∧ quiet.params = ({ quiet with live := leadBank } : State).params ∧
    sinkAnswer (withSession true quiet) = true ∧ sinkAnswer (withSession true { quiet with live := leadBank }) = true ∧
    (∃ t, exec (.exportWav [0]) (withSession true quiet) = .next t) ∧
    ∃ t, exec (.exportWav [0]) (withSession true { quiet with live := leadBank }) = .next t :=
  ⟨rfl, rfl, rfl, rfl, by decide, by decide, exists_next (by decide), exists_next (by decide)⟩

/-- Three frames in chunks of two: one full chunk and a remainder of one. -/
theorem witness_DataGoesOutInFullChunks :
    1 ≤ 2 ∧ dataWrites 2 [⟨1, 1⟩, ⟨2, 2⟩, ⟨3, 3⟩] = [[⟨1, 1⟩, ⟨2, 2⟩], [⟨3, 3⟩]] := by decide

/-- A service iteration with one packet in Q. -/
def oneCommand : State := { quiet with queue := [⟨8, []⟩], env := { Env.reset with events := [.service 7] } }

theorem witness_ServiceStepRunsTheDecodedInstruction :
    oneCommand.env.events = [.service 7] ∧ oneCommand.queue = [⟨8, []⟩] ∧ decode ⟨8, []⟩ = .ok .seqStart := by decide

/-- A CmdAccept event with a packet offered and `n` in Q. -/
def offering (n : Nat) : State :=
  { quiet with queue := List.replicate n ⟨8, []⟩, env := { Env.reset with offered := [⟨9, []⟩], events := [.side .cmdAccept] } }

theorem witness_CommandPortAcceptsOrHoldsOff :
    (Packet.mk 9 []).wf = true ∧ (offering 7).env.offered = [⟨9, []⟩] ∧ (offering 7).env.events = [.side .cmdAccept] ∧
    (offering 7).queue.length < (offering 7).params.queueDepth ∧ (offering 8).params.queueDepth ≤ (offering 8).queue.length := by decide

/-- The premise of DrainLeavesOnlyLaterPackets and of EveryServiceEndsWithOneBurst. -/
theorem witness_service : ∃ t, service 7 oneCommand = .next t := exists_next (by decide)

theorem witness_ReadbackIsPureAndUnmappedReadsZero :
    (∀ a ∈ [7, 0xFF, 0x107, 0x150, 0x220, 0x330, 0xFFF], ¬ Mapped a) ∧ (∀ a ∈ [6, 0x146, 0x21F, 0x32F], Mapped a) ∧
    ({ quiet with env := { Env.reset with events := [.side (.readback 6)] } } : State).env.events = [.side (.readback 6)] := by
  unfold Mapped; decide

theorem witness_MelodicStepReadsBack : ∃ t, exec (.setMelodicStep [1, 15, 65535, 2]) quiet = .next t := exists_next (by decide)

theorem witness_IdleServiceIsSilent :
    quiet.queue = [] ∧ quiet.seq.running = false ∧ (∀ c : Fin 5, quiet.live[c].active = false) ∧
    ({ quiet with env := { Env.reset with events := [.service 7] } } : State).env.events = [.service 7] := by decide

/-- A state with a sounding voice, a packet in Q and a service iteration to come meets the invariant and steps: the premises of InvariantStatesNeverFault,
StepKeepsTheInvariant and StepKeepsParametersAndExtendsTheTrace. -/
theorem witness_invariant_state : State.Inv { oneCommand with live := leadBank } ∧ ∃ t, step { oneCommand with live := leadBank } = .next t :=
  ⟨by constructor <;> decide, exists_next (by decide)⟩

/-- Each clause of OnlyTheNamedCommandsWritePatternAndSequencer happens. -/
theorem witness_OnlyTheNamedCommandsWritePatternAndSequencer :
    field (fun t => decide (t.pattern ≠ quiet.pattern)) (exec (.setDrumStep [0, 0, 1]) quiet) = some true ∧
    field (fun t => decide (t.seq.running ≠ quiet.seq.running)) (exec .seqStart quiet) = some true ∧
    field (fun t => decide (t.seq.bpm ≠ quiet.seq.bpm)) (exec (.setBpm [60]) quiet) = some true ∧
    field (fun t => decide (t.seq.currentStep ≠ (running 0 0 5).seq.currentStep)) (exec .seqStart (running 0 0 5)) = some true := by decide

end Sys2Proof.Tests
end

section
/-! SUPPORT. What a command can do, said once: the one inversion lemma of `exec`, from which the invariants and frames follow. -/

namespace Sys2Proof.Machine

/-- The next states a command can answer, with its operands clamped (30_encoding.md R68): `CommandEffect s i t` when the meaning of `i` in `s`
may leave `t` (44_commands.md R143 to R155). -/
inductive CommandEffect (s : State) : Instr → State → Prop
  /-- E_MALFORMED (R155): too few operands, nothing changes. -/
  | short {i : Instr} : i.operands.length < i.required → CommandEffect s i s
  /-- LIVE_NOTE_ON with frequency 0 releases its channel (R143). -/
  | noteRest (a0 : Word) (rest : List Word) (hc : optChannelArg rest 0 < 2) : frequencyArg a0 = 0 →
      CommandEffect s (.liveNoteOn (a0 :: rest))
        (s.withLive (s.live.set (optChannelArg rest 0) s.live[optChannelArg rest 0].released))
  /-- LIVE_NOTE_ON with another frequency triggers its channel with the live waveform (R143). -/
  | noteOn (a0 : Word) (rest : List Word) (hc : optChannelArg rest 0 < 2) : frequencyArg a0 ≠ 0 →
      CommandEffect s (.liveNoteOn (a0 :: rest))
        (s.withLive (s.live.set (optChannelArg rest 0)
          (s.live[optChannelArg rest 0].triggered (frequencyArg a0) s.g.liveWave.toNat s.params.melodicDecay)))
  | noteOff (args : List Word) (hc : optChannelArg args 0 < 2) :
      CommandEffect s (.liveNoteOff args) (s.withLive (s.live.set (optChannelArg args 0) s.live[optChannelArg args 0].released))
  | waveform (a0 : Word) (rest : List Word) :
      CommandEffect s (.setWaveform (a0 :: rest)) (s.withG { s.g with liveWave := BitVec.ofNat 2 (waveformArg a0) })
  | volume (a0 : Word) (rest : List Word) :
      CommandEffect s (.setVolume (a0 :: rest)) (s.withG { s.g with volume := BitVec.ofNat 15 (volumeArg a0) })
  | melodicStep (a0 a1 a2 a3 : Word) (rest : List Word) (ht : melodicTrackArg a0 < 2) (hs : stepArg a1 < 16) :
      CommandEffect s (.setMelodicStep (a0 :: a1 :: a2 :: a3 :: rest))
        (s.withPattern { s.pattern with
          mel := s.pattern.mel.set (melodicTrackArg a0) (s.pattern.mel[melodicTrackArg a0].set (stepArg a1)
            ⟨BitVec.ofNat 16 (frequencyArg a2), BitVec.ofNat 2 (waveformArg a3)⟩) })
  | drumStep (a0 a1 a2 : Word) (rest : List Word) (hd : drumTrackArg a0 < 3) (hs : stepArg a1 < 16) :
      CommandEffect s (.setDrumStep (a0 :: a1 :: a2 :: rest))
        (s.withPattern { s.pattern with
          drum := s.pattern.drum.set (drumTrackArg a0) (s.pattern.drum[drumTrackArg a0].set (stepArg a1) (hitFlag (hitArg a2))) })
  | bpm (a0 : Word) (rest : List Word) :
      CommandEffect s (.setBpm (a0 :: rest)) (s.withSeq { s.seq with bpm := BitVec.ofNat 8 (bpmArg a0) })
  | start : CommandEffect s .seqStart (seqStart s)
  | stop : CommandEffect s .seqStop
      ((s.withSeq { s.seq with running := false }).withLive ((s.live.set 0 s.live[0].released).set 1 s.live[1].released))
  | clear : CommandEffect s .seqClear
      ((s.withPattern clearPattern).withLive ((s.live.set 0 s.live[0].released).set 1 s.live[1].released))
  /-- EXPORT (R153); `runExport_cases` says what it can do. -/
  | recorded (a0 : Word) (rest : List Word) {t : State} : runExport (loopsArg a0) s = .next t →
      CommandEffect s (.exportWav (a0 :: rest)) t

/-- A live note leaves its one channel released or triggered (R143). -/
theorem liveNote_effect {a0 : Word} {rest : List Word} {s t : State}
    (h : liveNote (frequencyArg a0) (optChannelArg rest 0) s = .ok t) : CommandEffect s (.liveNoteOn (a0 :: rest)) t := by
  unfold liveNote at h
  split at h
  · next hf =>
    obtain ⟨b, hb, ht⟩ := op_bind_eq_ok.1 h
    obtain ⟨hc, rfl⟩ := release_cases hb
    cases ht
    exact .noteRest a0 rest hc hf
  · next hf =>
    obtain ⟨b, hb, ht⟩ := op_bind_eq_ok.1 h
    obtain ⟨hc, rfl⟩ := trigger_cases hb
    cases ht
    exact .noteOn a0 rest hc hf

theorem execLiveNoteOff_eq (args : List Word) (s : State) (hc : optChannelArg args 0 < 2) :
    execLiveNoteOff args s = .next (s.withLive (s.live.set (optChannelArg args 0) s.live[optChannelArg args 0].released)) := by
  simp [execLiveNoteOff, release_eq hc]

theorem execSetMelodicStep_eq (a0 a1 a2 a3 : Word) (rest : List Word) (s : State) (ht : melodicTrackArg a0 < 2) (hs : stepArg a1 < 16) :
    execSetMelodicStep (a0 :: a1 :: a2 :: a3 :: rest) s = .next (s.withPattern { s.pattern with
      mel := s.pattern.mel.set (melodicTrackArg a0) (s.pattern.mel[melodicTrackArg a0].set (stepArg a1)
        ⟨BitVec.ofNat 16 (frequencyArg a2), BitVec.ofNat 2 (waveformArg a3)⟩) }) := by
  simp [execSetMelodicStep, setMelodicStep_eq ht hs (frequencyArg_le a2) (waveformArg_le a3)]

theorem execSetDrumStep_eq (a0 a1 a2 : Word) (rest : List Word) (s : State) (hd : drumTrackArg a0 < 3) (hs : stepArg a1 < 16) :
    execSetDrumStep (a0 :: a1 :: a2 :: rest) s = .next (s.withPattern { s.pattern with
      drum := s.pattern.drum.set (drumTrackArg a0) (s.pattern.drum[drumTrackArg a0].set (stepArg a1) (hitFlag (hitArg a2))) }) := by
  simp [execSetDrumStep, setDrumStep_eq hd hs (hitArg_le a2)]

/-- A command that answers a next state answers one of its effects. -/
theorem exec_effect {i : Instr} {s t : State} (h : exec i s = .next t) : CommandEffect s i t := by
  cases i with
  | liveNoteOn args =>
    match args with
    | [] => cases h; exact .short (by decide)
    | a0 :: rest => exact liveNote_effect (ofOp_eq_next.1 h)
  | liveNoteOff args =>
    cases (execLiveNoteOff_eq args s (optChannelArg_lt args 0)).symm.trans h
    exact .noteOff args (optChannelArg_lt args 0)
  | setWaveform args =>
    match args with
    | [] => cases h; exact .short (by decide)
    | a0 :: rest => cases h; exact .waveform a0 rest
  | setVolume args =>
    match args with
    | [] => cases h; exact .short (by decide)
    | a0 :: rest => cases h; exact .volume a0 rest
  | setMelodicStep args =>
    match args with
    | [] | [_] | [_, _] | [_, _, _] => cases h; exact .short (by simp [Instr.operands, Instr.required])
    | a0 :: a1 :: a2 :: a3 :: rest =>
      have ht := Nat.lt_succ_of_le (melodicTrackArg_le a0)
      have hs := Nat.lt_succ_of_le (stepArg_le a1)
      cases (execSetMelodicStep_eq a0 a1 a2 a3 rest s ht hs).symm.trans h
      exact .melodicStep a0 a1 a2 a3 rest ht hs
  | setDrumStep args =>
    match args with
    | [] | [_] | [_, _] => cases h; exact .short (by simp [Instr.operands, Instr.required])
    | a0 :: a1 :: a2 :: rest =>
      have hd := Nat.lt_succ_of_le (drumTrackArg_le a0)
      have hs := Nat.lt_succ_of_le (stepArg_le a1)
      cases (execSetDrumStep_eq a0 a1 a2 rest s hd hs).symm.trans h
      exact .drumStep a0 a1 a2 rest hd hs
  | setBpm args =>
    match args with
    | [] => cases h; exact .short (by decide)
    | a0 :: rest => cases h; exact .bpm a0 rest
  | seqStart => cases h; exact .start
  | seqStop =>
    cases (seqStop_eq s).symm.trans (ofOp_eq_next.1 h)
    exact .stop
  | seqClear =>
    cases (seqClear_eq s).symm.trans (ofOp_eq_next.1 h)
    exact .clear
  | exportWav args =>
    match args with
    | [] => cases h; exact .short (by decide)
    | a0 :: rest => exact .recorded a0 rest h

end Sys2Proof.Machine
end

section
/-! SUPPORT. What a step is made of: the induction over a step, packaged once. A relation between states that holds across each part of a port event
and that chains holds across every step. -/

namespace Sys2Proof.Machine

/-- A relation that chains and holds across every part of a step (70_reset_and_hazards.md R177, 44_commands.md R157). -/
structure HoldsAcrossParts (R : State → State → Prop) : Prop where
  refl (s : State) : R s s
  trans {s t u : State} : R s t → R t u → R s u
  /-- The next event leaves the schedule. -/
  schedule (s : State) (es : List PortEvent) : R s (s.withEnv { s.env with events := es })
  /-- The iteration's time is latched. -/
  latch (s : State) (now : Word) : R s (s.withNow now)
  /-- The head packet leaves Q. -/
  dequeue {s : State} {p : Packet} {ps : List Packet} : s.queue = p :: ps → R s (s.withQueue ps)
  exec {i : Instr} {s t : State} : exec i s = .next t → R s t
  side {e : SideEvent} {s t : State} : sideEvent e s = .next t → R s t
  tick {s t : State} : clockTick s = .ok t → R s t
  burst {s t : State} : liveBurst s = .ok t → R s t

/-- What a drained packet can do: run its command, or be dropped for a reserved opcode (R154). -/
theorem executePacket_cases {p : Packet} {s t : State} (h : executePacket p s = .next t) :
    (∃ i, decode p = .ok i ∧ exec i s = .next t) ∨ t = s := by
  unfold executePacket at h
  split at h
  · next i hi => exact .inl ⟨i, hi, h⟩
  · exact .inr (by simpa using h.symm)
  · cases h

namespace HoldsAcrossParts

variable {R : State → State → Prop}

theorem drain (hR : HoldsAcrossParts R) (k : Nat) {s t : State} (h : Machine.drain k s = .next t) : R s t := by
  induction k generalizing s with
  | zero => cases h; exact hR.refl _
  | succ k ih =>
    cases hq : s.queue with
    | nil =>
      cases (drain_succ_empty hq k).symm.trans h
      exact hR.refl _
    | cons p ps =>
      rw [drain_succ hq] at h
      obtain ⟨u, hu, h⟩ := andThen_eq_next.1 h
      have hpacket : R (s.withQueue ps) u := by
        rcases executePacket_cases hu with ⟨i, -, hi⟩ | rfl
        · exact hR.exec hi
        · exact hR.refl _
      exact hR.trans (hR.dequeue hq) (hR.trans hpacket (ih h))

theorem service (hR : HoldsAcrossParts R) {now : Word} {s t : State} (h : Machine.service now s = .next t) : R s t := by
  obtain ⟨u, hdrain, h⟩ := andThen_eq_next.1 h
  obtain ⟨v, htick, hburst⟩ := tickAndBurst_cases h
  exact hR.trans (hR.latch s now) (hR.trans (hR.drain _ hdrain) (hR.trans (hR.tick htick) (hR.burst hburst)))

theorem step (hR : HoldsAcrossParts R) {s t : State} (h : Machine.step s = .next t) : R s t := by
  cases he : s.env.events with
  | nil =>
    cases (step_idle he).symm.trans h
    exact hR.refl _
  | cons e es =>
    rw [step_event he] at h
    have hevent : R (s.withEnv { s.env with events := es }) t := by
      cases e with
      | side e => exact hR.side h
      | service now => exact hR.service h
    exact hR.trans (hR.schedule s es) hevent

end HoldsAcrossParts

end Sys2Proof.Machine
end

section
/-! SUPPORT. The invariant across each part of a step (10_state.md R40, R41): each part keeps it, so the step does. -/

namespace Sys2Proof.Machine

/-! ### Values in range -/

/-- A release keeps a bank good (R77). -/
theorem Bank.Ok.setReleased {b : Bank} (hb : b.Ok) {c : Nat} (hc : c < 2) : Bank.Ok (Vector.set b c b[c].released) := by
  have hc5 : c < 5 := by omega
  have hch := Channel.released_ok (c := c) (hb.get hc5).1
  exact hb.set hc5 hch.1 hch.2

/-- MELODIC_DECAY in its range (R8). -/
theorem State.Inv.melodicDecay {s : State} (h : s.Inv) : 1 ≤ s.params.melodicDecay.toNat ∧ s.params.melodicDecay.toNat ≤ 2 ^ 24 := by
  obtain ⟨-, -, -, -, hlo, hhi, -⟩ := h.params
  exact ⟨hlo, hhi⟩

/-- A legal waveform operand is a legal waveform code (R18). -/
theorem ofNat_waveform_le {w : Nat} (hw : w ≤ 2) : (BitVec.ofNat 2 w).toNat ≤ 2 := by
  rw [BitVec.toNat_ofNat]; omega

/-! ### Replacing one part of the state -/

theorem State.Inv.withLive {s : State} (h : s.Inv) {b : Bank} (hb : b.Ok) : (s.withLive b).Inv := { h with live := hb }
theorem State.Inv.withPattern {s : State} (h : s.Inv) {p : PatternStore} (hp : p.Ok) : (s.withPattern p).Inv := { h with pattern := hp }
theorem State.Inv.withSeq {s : State} (h : s.Inv) {q : Sequencer} (hq : q.Ok) : (s.withSeq q).Inv := { h with seq := hq }
theorem State.Inv.withG {s : State} (h : s.Inv) {g : Globals} (hg : g.Ok) : (s.withG g).Inv := { h with g := hg }
theorem State.Inv.withNow {s : State} (h : s.Inv) (now : Word) : (s.withNow now).Inv := { h with }
theorem State.Inv.emit {s : State} (h : s.Inv) (os : List PortOutput) : (s.emit os).Inv := { h with }

/-- The outside agents' other moves are free, as long as the packets offered stay as they are. -/
theorem State.Inv.withEnv {s : State} (h : s.Inv) {e : Env} (he : e.offered = s.env.offered) : (s.withEnv e).Inv :=
  { h with offeredWf := fun p hp => h.offeredWf p (he ▸ hp) }

theorem State.Inv.dequeue {s : State} (h : s.Inv) {p : Packet} {ps : List Packet} (hq : s.queue = p :: ps) : (s.withQueue ps).Inv :=
  { h with
    queueWf := fun x hx => h.queueWf x (hq ▸ List.mem_cons_of_mem p hx)
    queueLen := by
      have := h.queueLen
      rw [hq, List.length_cons] at this
      exact Nat.le_of_succ_le this }

/-- Packets that move from the command port to the tail of Q were whole, so with room for them the invariant is kept (R156). -/
theorem State.Inv.accept {s : State} (h : s.Inv) {taken left : List Packet} (ho : s.env.offered = taken ++ left)
    (hroom : (s.queue ++ taken).length ≤ s.params.queueDepth) :
    ((s.withQueue (s.queue ++ taken)).withEnv { s.env with offered := left }).Inv :=
  { h with
    queueWf := fun p hp => (List.mem_append.1 hp).elim (h.queueWf p) fun hp => h.offeredWf p (ho ▸ List.mem_append_left left hp)
    queueLen := hroom
    offeredWf := fun p hp => h.offeredWf p (ho ▸ List.mem_append_right taken hp) }

/-! ### The ports and EXPORT -/

theorem State.Inv.sideEvent {e : SideEvent} {s t : State} (h : s.Inv) (ht : sideEvent e s = .next t) : t.Inv := by
  rcases sideEvent_cases ht with ht | ⟨addr, rfl⟩
  · rcases cmdAccept_cases ht with rfl | ⟨p, ps, ho, hroom, -, rfl⟩
    · exact h
    · exact h.accept (taken := [p]) ho (by simpa using hroom)
  · exact h.emit _

theorem State.Inv.exportSession {status : BitVec 2} (hstatus : status ≠ 3) {os : List PortOutput} {inside : List (List SideEvent)}
    {s t : State} (h : s.Inv) (ht : exportSession status os inside s = .next t) : t.Inv := by
  obtain ⟨taken, out, hstate, ho, -, -, hroom⟩ := exportSession_cases ht
  generalize t.env.offered = left at hstate ho
  subst hstate
  exact ((h.accept ho (hroom h.queueLen)).withG (g := { s.g with exportStatus := status }) ⟨h.g.1, hstatus⟩).emit out

theorem State.Inv.runExport {n : Nat} {s t : State} (h : s.Inv) (ht : runExport n s = .next t) : t.Inv := by
  have hopen : (sinkOpened s).Inv := h.withEnv rfl
  rcases runExport_cases ht with ⟨-, ht⟩ | ⟨fs, x, -, hrender, ht⟩
  · exact hopen.exportSession (by decide) ht
  · obtain ⟨fs', x', hrender', -, hx⟩ := exportLoops_spec h.pattern h.params n Bank.reset_ok
    cases hrender'.symm.trans hrender
    obtain ⟨-, -, -, -, -, -, hchunk⟩ := h.params
    have hbuf : (chunkFrames s.params.chunkFrames [] fs).2.length < s.params.chunkFrames :=
      chunkFrames_rest (buf := []) hchunk hchunk fs
    have hset : (((sinkOpened s).withScratch x).withFrameBuf (chunkFrames s.params.chunkFrames [] fs).2).Inv :=
      { hopen with scratch := hx, frameBuf := hbuf }
    exact hset.exportSession (by decide) ht

/-! ### Commands, the tick and the burst -/

/-- Every command keeps the invariant: the clamps of R68 keep its operands in range. -/
theorem State.Inv.exec {i : Instr} {s t : State} (h : s.Inv) (ht : exec i s = .next t) : t.Inv := by
  cases exec_effect ht with
  | short => exact h
  | noteRest a0 rest hc => exact h.withLive (h.live.setReleased hc)
  | noteOn a0 rest hc hf =>
    have hch := Channel.triggered_ok (ch := s.live[optChannelArg rest 0]) ⟨by omega, frequencyArg_le a0⟩ h.g.1 hc h.melodicDecay
    exact h.withLive (h.live.set (by omega) hch.1 hch.2)
  | noteOff args hc => exact h.withLive (h.live.setReleased hc)
  | waveform a0 rest => exact h.withG ⟨ofNat_waveform_le (waveformArg_le a0), h.g.2⟩
  | volume a0 rest => exact h.withG h.g
  | melodicStep a0 a1 a2 a3 rest htr hst =>
    exact h.withPattern (h.pattern.setMel htr hst (ofNat_waveform_le (waveformArg_le a3)))
  | drumStep a0 a1 a2 rest htr hst => exact h.withPattern h.pattern
  | bpm a0 rest =>
    have hb := bpmArg_mem a0
    refine h.withSeq (show 40 ≤ (BitVec.ofNat 8 (bpmArg a0)).toNat ∧ (BitVec.ofNat 8 (bpmArg a0)).toNat ≤ 240 from ?_)
    rw [BitVec.toNat_ofNat]; omega
  | start => exact h.withSeq h.seq
  | stop => exact (h.withSeq (q := { s.seq with running := false }) h.seq).withLive h.live.releaseMelodic
  | clear => exact (h.withPattern clearPattern_ok).withLive h.live.releaseMelodic
  | recorded a0 rest hrun => exact h.runExport hrun

theorem State.Inv.clockTick {s t : State} (h : s.Inv) (ht : clockTick s = .ok t) : t.Inv := by
  rcases clockTick_cases ht with rfl | ⟨b, -, -, hb, rfl⟩
  · exact h
  · obtain ⟨b', hb', hok⟩ := triggerStep_spec h.melodicDecay h.pattern s.seq.currentStep.isLt h.live
    cases hb'.symm.trans hb
    exact ((h.withLive hok).emit _).withSeq h.seq

theorem State.Inv.liveBurst {s t : State} (h : s.Inv) (ht : liveBurst s = .ok t) : t.Inv := by
  obtain ⟨fs, b, hmix, rfl⟩ := liveBurst_cases ht
  obtain ⟨fs', b', hmix', -, hb⟩ := mixFrames_spec (peak_nonneg s.g.volume) s.params.burstFrames h.live
  cases hmix'.symm.trans hmix
  exact (h.withLive hb).emit _

/-- The invariant is carried across every part of a step. -/
theorem invariant_holdsAcrossParts : HoldsAcrossParts fun s t => s.Inv → t.Inv where
  refl _ := id
  trans hst htu := htu ∘ hst
  schedule _ _ h := h.withEnv rfl
  latch _ now h := h.withNow now
  dequeue hq h := h.dequeue hq
  exec ht h := h.exec ht
  side ht h := h.sideEvent ht
  tick ht h := h.clockTick ht
  burst ht h := h.liveBurst ht

/-- Settles O58: the invariant is carried across each part of a step, hence across the step. -/
theorem stepKeepsTheInvariant : Obligations.StepKeepsTheInvariant :=
  fun _ _ h ht => invariant_holdsAcrossParts.step ht h

end Sys2Proof.Machine
end

section
/-! SUPPORT. The reset state (R42). -/

namespace Sys2Proof.Machine

/-- Settles O56: the baseline banks, the empty pattern and the chosen parameters are in range, and Q is empty. -/
theorem resetMeetsTheInvariant : Obligations.ResetMeetsTheInvariant where
  live := Bank.reset_ok
  scratch := Bank.reset_ok
  pattern := clearPattern_ok
  seq := by decide
  g := by decide
  params := by decide
  queueWf := by decide
  queueLen := by decide
  offeredWf := by decide
  frameBuf := by decide

/-- Settles O55 from the reset definitions, every bank, cell and field. -/
theorem resetValues : Obligations.ResetValues := by
  refine ⟨?channels, rfl, ?melodic, ?drums, rfl, rfl, rfl⟩
  case channels => decide
  case melodic => exact fun tr st => clearPattern_mel tr.isLt st.isLt
  case drums => exact fun d st => clearPattern_drum d.isLt st.isLt

end Sys2Proof.Machine
end

section
/-! SUPPORT. The parameters and the outputs so far across each part of a step (R44, R187). -/

namespace Sys2Proof.Machine

/-- `t` has the parameters of `s`, and its outputs are those of `s` and maybe more after them. -/
def Extends (s t : State) : Prop := t.params = s.params ∧ ∃ os, t.trace = s.trace ++ os

theorem Extends.refl (s : State) : Extends s s := ⟨rfl, [], (List.append_nil _).symm⟩

theorem Extends.trans {s t u : State} (hst : Extends s t) (htu : Extends t u) : Extends s u := by
  obtain ⟨hp, os, ho⟩ := hst
  obtain ⟨hp', os', ho'⟩ := htu
  exact ⟨hp'.trans hp, os ++ os', by rw [ho', ho, List.append_assoc]⟩

/-- A step part that writes neither the parameters nor the outputs. -/
theorem Extends.of_eq {s t : State} (hp : t.params = s.params) (ho : t.trace = s.trace) : Extends s t :=
  ⟨hp, [], by rw [ho, List.append_nil]⟩

theorem extends_of_exportSession {status : BitVec 2} {os : List PortOutput} {inside : List (List SideEvent)} {s t : State}
    (h : exportSession status os inside s = .next t) : Extends s t := by
  obtain ⟨_, out, ht, -⟩ := exportSession_cases h
  exact ⟨by rw [ht], out, by rw [ht]⟩

theorem extends_of_exec {i : Instr} {s t : State} (h : exec i s = .next t) : Extends s t := by
  cases exec_effect h with
  | recorded a0 rest hrun =>
    rcases runExport_cases hrun with ⟨-, hsession⟩ | ⟨fs, x, -, -, hsession⟩
    · exact extends_of_exportSession (s := sinkOpened s) hsession
    · exact extends_of_exportSession (s := ((sinkOpened s).withScratch x).withFrameBuf _) hsession
  | _ => exact .of_eq rfl rfl

theorem extends_of_sideEvent {e : SideEvent} {s t : State} (h : sideEvent e s = .next t) : Extends s t := by
  rcases sideEvent_cases h with h | ⟨addr, rfl⟩
  · rcases cmdAccept_cases h with rfl | ⟨p, ps, -, -, -, rfl⟩
    · exact .refl _
    · exact .of_eq rfl rfl
  · exact ⟨rfl, [.rbData addr (readback s addr)], rfl⟩

theorem extends_of_clockTick {s t : State} (h : clockTick s = .ok t) : Extends s t := by
  rcases clockTick_cases h with rfl | ⟨b, -, -, -, rfl⟩
  · exact .refl _
  · exact ⟨rfl, [.notify s.seq.currentStep], rfl⟩

theorem extends_of_liveBurst {s t : State} (h : liveBurst s = .ok t) : Extends s t := by
  obtain ⟨fs, b, -, rfl⟩ := liveBurst_cases h
  exact ⟨rfl, [.audioOut fs], rfl⟩

theorem extends_holdsAcrossParts : HoldsAcrossParts Extends where
  refl := .refl
  trans := .trans
  schedule _ _ := .of_eq rfl rfl
  latch _ _ := .of_eq rfl rfl
  dequeue _ := .of_eq rfl rfl
  exec := extends_of_exec
  side := extends_of_sideEvent
  tick := extends_of_clockTick
  burst := extends_of_liveBurst

/-- Settles O59: every part of a step keeps the parameters and only adds outputs, hence so does the step. -/
theorem stepKeepsParametersAndExtendsTheTrace : Obligations.StepKeepsParametersAndExtendsTheTrace :=
  fun _ _ ht => extends_holdsAcrossParts.step ht

end Sys2Proof.Machine
end

section
/-! SUPPORT. The readback map block by block (10_state.md R38, R39). -/

namespace Sys2Proof.Machine

open Sys2Proof.Certificates

theorem flagBit_eq_toNat (b : Bool) : flagBit b = b.toNat := by cases b <;> rfl

/-- A 32-bit field reads as it stands. -/
theorem ofNat_toNat_word (x : Word) : BitVec.ofNat 32 x.toNat = x := by rw [BitVec.ofNat_toNat, BitVec.setWidth_eq]

/-- The block, row and column of an address are its digits (R38). -/
theorem address_digits {a block row col : Nat} (hrow : row < 16) (hcol : col < 16) (ha : a = 256 * block + 16 * row + col) :
    a / 256 = block ∧ a / 16 % 16 = row ∧ a % 16 = col := by
  omega

/-- An address below 2^12 reads its field of the map. -/
theorem readback_ofNat (s : State) {a : Nat} (ha : a < 4096) : readback s (BitVec.ofNat 12 a) = BitVec.ofNat 32 (readbackNat s a) := by
  rw [readback, BitVec.toNat_ofNat, Nat.mod_eq_of_lt ha]

/-- Field `k` of channel `c` (R38). -/
theorem readback_channel (s : State) {a c k : Nat} (hc : c < 5) (hk : k < 16) (ha : a = 0x100 + 16 * c + k) :
    readback s (BitVec.ofNat 12 a) = BitVec.ofNat 32 (channelField s.live[c] k) := by
  obtain ⟨hblock, hrow, hcol⟩ := address_digits (block := 1) (row := c) (by omega) hk ha
  rw [readback_ofNat s (by omega)]
  simp only [readbackNat, hblock, hrow, hcol, hc, dif_pos]

/-- Step `st` of melodic track `tr` (R38, R105). -/
theorem readback_mel (s : State) {tr st : Nat} (ht : tr < 2) (hs : st < 16) :
    readback s (BitVec.ofNat 12 (0x200 + 16 * tr + st)) = BitVec.ofNat 32 (melWord s.pattern.mel[tr][st]) := by
  obtain ⟨hblock, hrow, hcol⟩ := address_digits (block := 2) (row := tr) (by omega) hs rfl
  rw [readback_ofNat s (by omega)]
  simp only [readbackNat, hblock, hrow, hcol, ht, dif_pos]

/-- Step `st` of percussive track `d` (R38). -/
theorem readback_drum (s : State) {d st : Nat} (hd : d < 3) (hs : st < 16) :
    readback s (BitVec.ofNat 12 (0x300 + 16 * d + st)) = BitVec.ofNat 32 (flagBit s.pattern.drum[d][st]) := by
  obtain ⟨hblock, hrow, hcol⟩ := address_digits (block := 3) (row := d) (by omega) hs rfl
  rw [readback_ofNat s (by omega)]
  simp only [readbackNat, hblock, hrow, hcol, hd, dif_pos]

theorem controlField_unmapped (s : State) {a : Nat} (ha : 6 < a) : controlField s a = 0 := by
  obtain ⟨n, rfl⟩ := Nat.exists_eq_add_of_le' ha
  rfl

theorem channelField_unmapped (ch : Channel) {k : Nat} (hk : 6 < k) : channelField ch k = 0 := by
  obtain ⟨n, rfl⟩ := Nat.exists_eq_add_of_le' hk
  rfl

/-- An address the map does not list reads 0, block by block (R39). -/
theorem readbackNat_unmapped (s : State) {a : Nat} (ha : ¬ Mapped a) : readbackNat s a = 0 := by
  unfold Mapped at ha
  unfold readbackNat
  dsimp only
  split
  · exact controlField_unmapped s (by omega)
  · split
    · exact channelField_unmapped _ (by omega)
    · rfl
  · rw [dif_neg (by omega)]
  · rw [dif_neg (by omega)]
  · rfl

/-- Settles O50 through the rule for each block of the map. -/
theorem readbackMap : Obligations.ReadbackMap := by
  intro s
  refine ⟨?running, ?bpm, ?lastStep, ?volume, ?liveWave, ?status, rfl, ?channels, ?melodic, ?drums⟩
  case running => rw [← flagBit_eq_toNat]; rfl
  case bpm => exact BitVec.ofNat_toNat 32 _
  case lastStep => exact ofNat_toNat_word _
  case volume => exact BitVec.ofNat_toNat 32 _
  case liveWave => exact BitVec.ofNat_toNat 32 _
  case status => exact BitVec.ofNat_toNat 32 _
  case channels =>
    intro c
    have hfield (k : Nat) (hk : k < 16) {a : Nat} (ha : a = 0x100 + 16 * c.val + k) := readback_channel s c.isLt hk ha
    refine ⟨?_, ?_, ?_, ?_, ?_, ?_, ?_⟩
    · rw [hfield 0 (by decide) (a := 0x100 + 16 * c.val) rfl, ← flagBit_eq_toNat, ← flagBit_eq_toNat]; rfl
    · rw [hfield 1 (by decide) (by omega)]; exact ofNat_toNat_word _
    · rw [hfield 2 (by decide) (by omega)]; exact ofNat_toNat_word _
    · rw [hfield 3 (by decide) (by omega)]; exact BitVec.ofNat_toNat 32 _
    · rw [hfield 4 (by decide) (by omega)]; exact BitVec.ofNat_toNat 32 _
    · rw [hfield 5 (by decide) (by omega)]; exact BitVec.ofNat_toNat 32 _
    · rw [hfield 6 (by decide) (by omega)]; exact BitVec.ofNat_toNat 32 _
  case melodic => exact fun tr st => readback_mel s tr.isLt st.isLt
  case drums =>
    intro d st
    rw [readback_drum s d.isLt st.isLt, flagBit_eq_toNat]; rfl

/-- Settles O51: the unlisted addresses block by block, the event from its definition. -/
theorem readbackIsPureAndUnmappedReadsZero : Obligations.ReadbackIsPureAndUnmappedReadsZero := by
  intro s addr
  refine ⟨fun ha => ?_, fun es he => ?_⟩
  · rw [readback, readbackNat_unmapped s ha]; rfl
  · rw [step_event he]; rfl

end Sys2Proof.Machine
end

section
/-! SUPPORT. The decoder, said once for a packet of R59: which fields of the header it reads, and what it makes of a command's opcode
(30_encoding.md R60 to R67). -/

namespace Sys2Proof

/-- The command with `ws` for its operand list; the three commands without operands stay as they are (R63). -/
def Instr.withOperands : Instr → List Word → Instr
  | .liveNoteOn _, ws => .liveNoteOn ws
  | .liveNoteOff _, ws => .liveNoteOff ws
  | .setWaveform _, ws => .setWaveform ws
  | .setVolume _, ws => .setVolume ws
  | .setMelodicStep _, ws => .setMelodicStep ws
  | .setDrumStep _, ws => .setDrumStep ws
  | .setBpm _, ws => .setBpm ws
  | .seqStart, _ => .seqStart
  | .seqStop, _ => .seqStop
  | .seqClear, _ => .seqClear
  | .exportWav _, ws => .exportWav ws

@[simp] theorem Instr.withOperands_operands (i : Instr) : i.withOperands i.operands = i := by cases i <;> rfl

/-- A command of the opcode map has fewer than sixteen arguments, so ARGC can count them (R60, R63). -/
theorem Instr.arity_lt_sixteen (i : Instr) : i.required + i.optional < 16 := by
  cases i <;> simp [Instr.required, Instr.optional]

/-- The encoder makes a packet of R59 with the command's opcode. -/
theorem encode_packet {i : Instr} (h : i.wf = true) : (encode i).wf = true ∧ opcOf (encode i).header = opcode i :=
  Laws.PacketForm.of_argument_count i.arity_lt_sixteen h

/-- A packet with a command's opcode decodes to that command, on the first REQ + OPTC argument words (R63, R65, R142). -/
theorem decode_of_opcode {p : Packet} {i : Instr} (hwf : p.wf = true) (hopc : opcOf p.header = opcode i) :
    decode p = .ok (i.withOperands (p.args.take (i.required + i.optional))) := by
  rw [decode, if_pos hwf, hopc]
  cases i <;> rfl

/-- A field inside H[11:0] is a field of H[11:0]. -/
theorem extractLsb'_congr_of_low {h h' : Word} (hlow : h.extractLsb' 0 12 = h'.extractLsb' 0 12) {start len : Nat} (hle : start + len ≤ 12) :
    h.extractLsb' start len = h'.extractLsb' start len := by
  rw [← BitVec.extractLsb'_extractLsb'_of_le hle, hlow, BitVec.extractLsb'_extractLsb'_of_le hle]

/-- The decoder reads OPC and ARGC of a header and nothing else of it. -/
theorem decode_congr_header {h h' : Word} (args : List Word) (hopc : opcOf h = opcOf h') (hargc : argcOf h = argcOf h') :
    decode ⟨h, args⟩ = decode ⟨h', args⟩ := by
  unfold decode Packet.wf
  rw [hopc, hargc]

/-- Settles O1: the encoded packet has the command's opcode, and a well-formed operand list is taken whole. -/
theorem decodeOfEncodeIsTheInstruction : Obligations.DecodeOfEncodeIsTheInstruction := by
  intro i hi
  obtain ⟨hwf, hopc⟩ := encode_packet hi
  have htake : (encode i).args.take (i.required + i.optional) = i.operands := List.take_of_length_le (of_decide_eq_true hi)
  rw [decode_of_opcode hwf hopc, htake, Instr.withOperands_operands]

/-- Settles O2: headers equal on H[11:0] have the same OPC and ARGC (R60), which is all the decoder reads. -/
theorem decodeIgnoresReservedHeaderBits : Obligations.DecodeIgnoresReservedHeaderBits := by
  intro h h' args hlow
  have hdec := decode_congr_header args (extractLsb'_congr_of_low hlow (by decide))
    (congrArg BitVec.toNat (extractLsb'_congr_of_low hlow (by decide)))
  exact ⟨hdec, fun s => by rw [Machine.executePacket, hdec, Machine.executePacket]⟩

/-- Settles O3: the packet has the command's opcode, and its first REQ + OPTC argument words are the operands. -/
theorem decodeIgnoresSurplusArguments : Obligations.DecodeIgnoresSurplusArguments := by
  intro i surplus hfull hlen
  have hwf : Packet.wf ⟨headerOf (opcode i) (i.operands.length + surplus.length), i.operands ++ surplus⟩ = true := by
    simp only [Packet.wf, argcOf_headerOf _ (Nat.lt_succ_of_le hlen), List.length_append, beq_self_eq_true]
  rw [decode_of_opcode hwf (opcOf_headerOf _ _), List.take_left' hfull, Instr.withOperands_operands]

/-- Settles O5: ARGC counts the argument words of a packet, so taking ARGC words gives exactly these. -/
theorem packetLengthComesFromArgcAlone : Obligations.PacketLengthComesFromArgcAlone := by
  intro p rest hwf
  have hargc : argcOf p.header = p.args.length := (eq_of_beq hwf).symm
  have hle : argcOf p.header ≤ (p.args ++ rest).length := by simp [hargc]
  rw [takePacket, if_pos hle, List.take_left' hargc.symm, List.drop_left' hargc.symm]

/-- Settles O6 by running the decoder on the six packets of 30_encoding.md section 6. -/
theorem workedEncodingsDecode : Obligations.WorkedEncodingsDecode := by
  unfold Obligations.WorkedEncodingsDecode
  decide

end Sys2Proof
end

section
/-! SUPPORT. The clamp of an argument word, below, above and inside its range (R61, R68). -/

namespace Sys2Proof.Machine

/-- At or below the range a clamped argument is the lower bound (R68). -/
theorem clampArg_of_le {w : Word} {lo hi : Nat} (hb : lo ≤ hi) (h : w.toInt ≤ lo) : clampArg w lo hi = lo := by
  unfold clampArg clamp; omega

/-- At or above the range it is the upper bound. -/
theorem clampArg_of_ge {w : Word} {lo hi : Nat} (h : (hi : Int) ≤ w.toInt) : clampArg w lo hi = hi := by
  unfold clampArg clamp; omega

/-- In the range it is the signed value of the word itself (R61). -/
theorem clampArg_of_mem {w : Word} {lo hi : Nat} (hlo : (lo : Int) ≤ w.toInt) (hhi : w.toInt ≤ hi) : (clampArg w lo hi : Int) = w.toInt := by
  unfold clampArg clamp; omega

/-- Settles O8: below the range, above it, and in it. -/
theorem argumentsAreClampedToTheNearerBound : Obligations.ArgumentsAreClampedToTheNearerBound :=
  fun _ _ _ hb => ⟨clampArg_of_le hb, clampArg_of_ge, clampArg_of_mem⟩

end Sys2Proof.Machine
end

section
/-! SUPPORT. One sample of one channel, said once: what an active and an inactive record render (40_channelbank.md R86 to R92), and the exact
values of the datapath units in natural numbers (R89, R90, R92). -/

namespace Sys2Proof.Machine

/-- One decay of a level by a Q1.24 factor, on natural numbers (R90, R92). -/
def decayStep (d x : Nat) : Nat := x * d / 2 ^ 24

/-- One step of the pitch sweep with its floor of 30 Hz, on natural numbers (R92). -/
def sweepStep (m x : Nat) : Nat := max (decayStep m x) (30 * 2 ^ 16)

/-- One step of the noise register on natural numbers, without a branch (R89). -/
def noiseStep (l : Nat) : Nat := l / 2 ^^^ l % 2 * 0x6000

theorem decayStep_le {d : Nat} (hd : d ≤ 2 ^ 24) (x : Nat) : decayStep d x ≤ x :=
  Nat.div_le_of_le_mul (by nlinarith)

theorem decayStep_lt {d x : Nat} (hd : d < 2 ^ 24) (hx : 0 < x) : decayStep d x < x :=
  Nat.div_lt_of_lt_mul (by nlinarith)

theorem decayStep_one (x : Nat) : decayStep (2 ^ 24) x = x := Nat.mul_div_cancel x (by decide)

/-! ### Datapath units -/

/-- At the level 1.0 the envelope leaves the waveform value as it is (R85). -/
theorem applyEnvelope_one (w : Int) : applyEnvelope w Config.envOne = w := Int.mul_ediv_cancel w (by decide)

theorem lfsrStep_toNat (l : BitVec 15) :
    (lfsrStep l).toNat = if l.toNat % 2 = 1 then (l.toNat / 2) ^^^ 0x6000 else l.toNat / 2 := by
  have hbit : l.getLsbD 0 = decide (l.toNat % 2 = 1) := Nat.testBit_zero l.toNat
  simp only [lfsrStep, hbit, decide_eq_true_eq, apply_ite BitVec.toNat, BitVec.toNat_xor, BitVec.toNat_ushiftRight,
    Nat.shiftRight_eq_div_pow, pow_one]
  rfl

theorem lfsrStep_toNat_eq_noiseStep (l : BitVec 15) : (lfsrStep l).toNat = noiseStep l.toNat := by
  rw [lfsrStep_toNat, noiseStep]
  rcases Nat.mod_two_eq_zero_or_one l.toNat with h | h <;> simp [h]

/-- A noise channel does not read its waveform code (R83). -/
theorem channelWave_noise {p : Int} {ch : Channel} (h : ch.isNoise = true) : channelWave p ch = .ok (noiseWave p ch.lfsr) := if_pos h

theorem channelWave_tone {p : Int} {ch : Channel} (h : ch.isNoise = false) : channelWave p ch = selectWave p ch.wave ch.phase := by
  simp [channelWave, h]

/-! ### One record -/

theorem Channel.render_inactive {sr : Nat} {p : Int} {ch : Channel} (h : ch.active = false) : ch.render sr p = .ok (0, ch) := by
  simp [render, h]

theorem Channel.render_active {sr : Nat} {p : Int} {ch : Channel} (h : ch.active = true) :
    ch.render sr p = (do let w ← channelWave p ch; .ok (applyEnvelope w ch.envLevel, ch.advanced sr)) := if_pos h

/-- What an active record renders: its waveform value under its envelope, and the advanced record. -/
theorem Channel.render_active_eq_ok {sr : Nat} {p a : Int} {ch ch' : Channel} (h : ch.active = true) :
    ch.render sr p = .ok (a, ch') ↔ ∃ w, channelWave p ch = .ok w ∧ a = applyEnvelope w ch.envLevel ∧ ch' = ch.advanced sr := by
  rw [render_active h, op_bind_eq_ok]
  simp [eq_comm]

/-- What lets a record render and its level fall by exact products: a source of sound the selector knows (R83, R84), a level and a decay of at
most 1.0 (R41). -/
structure Channel.Playable (ch : Channel) : Prop where
  source : ch.isNoise = true ∨ ch.wave.toNat ≤ 2
  level : ch.envLevel.toNat ≤ 2 ^ 24
  decay : ch.envDecay.toNat ≤ 2 ^ 24

theorem Channel.Ok.playable {ch : Channel} (h : ch.Ok) : ch.Playable :=
  have ⟨hwave, hlevel, _, hdecay, _⟩ := h
  ⟨.inr hwave, hlevel, hdecay⟩

namespace Channel.Playable

variable {ch : Channel} (h : ch.Playable)
include h

theorem channelWave_eq_ok (p : Int) : ∃ w, channelWave p ch = .ok w := by
  cases hnoise : ch.isNoise with
  | true => exact ⟨_, channelWave_noise hnoise⟩
  | false =>
    have hwave : ch.wave.toNat ≤ 2 := h.source.resolve_left (by simp [hnoise])
    have hcode : ch.wave.toNat = 0 ∨ ch.wave.toNat = 1 ∨ ch.wave.toNat = 2 := by omega
    rw [channelWave_tone hnoise]
    rcases hcode with e | e | e <;> simp [selectWave, e]

theorem render_active (sr : Nat) (p : Int) (ha : ch.active = true) : ∃ a, ch.render sr p = .ok (a, ch.advanced sr) :=
  have ⟨w, hw⟩ := h.channelWave_eq_ok p
  ⟨_, (render_active_eq_ok ha).2 ⟨w, hw, rfl, rfl⟩⟩

/-- The level after a sample is one decay of the level before it (R90, R93). -/
theorem advanced_envLevel (sr : Nat) : (ch.advanced sr).envLevel.toNat = decayStep ch.envDecay.toNat ch.envLevel.toNat :=
  (decayLevel_toNat h.level h.decay).1

theorem advanced (sr : Nat) : (ch.advanced sr).Playable where
  source := h.source
  level := (h.advanced_envLevel sr).trans_le ((decayStep_le h.decay _).trans h.level)
  decay := h.decay

end Channel.Playable

theorem activeAfter_iff (level : Q24) : activeAfter level = true ↔ 16777 ≤ level.toNat := by simp [activeAfter]

theorem phaseInc_toNat (sr : Nat) (freq : Word) : (phaseInc sr freq).toNat = freq.toNat * 65536 / sr % 2 ^ 32 := BitVec.toNat_ofNat ..

/-- Settles O24: without noise the selector reads code 3, with noise it is not asked. -/
theorem waveformCodeThreeFaults : Obligations.WaveformCodeThreeFaults := by
  intro sr p ch hwave hactive
  rw [Channel.render_active hactive]
  constructor
  · intro htone
    rw [channelWave_tone htone, hwave]
    rfl
  · intro hnoise
    rw [channelWave_noise hnoise]
    exact ⟨_, rfl⟩

/-- Settles O25: one waveform value for each source of sound, then the envelope. -/
theorem renderedAmplitude : Obligations.RenderedAmplitude := by
  intro sr v ch a ch' hactive hrender
  obtain ⟨w, hw, rfl, -⟩ := (Channel.render_active_eq_ok hactive).1 hrender
  have hpeak : (v.toNat : Int).fdiv 5 = peak v := Int.fdiv_eq_ediv_of_nonneg _ (by decide)
  have hselect {code : WaveCode} (htone : ch.isNoise = false) (hcode : ch.wave = code) : selectWave (peak v) code ch.phase = .ok w := by
    rw [← hcode, ← channelWave_tone htone, hw]
  simp only [hpeak]
  refine ⟨w, (Int.fdiv_eq_ediv_of_nonneg _ (by decide)).symm, ?noise, ?square, ?sawtooth, ?pulse⟩
  case noise =>
    intro hnoise
    rw [channelWave_noise hnoise] at hw
    exact (Except.ok.inj hw).symm
  case square => exact fun htone hcode => (Except.ok.inj (hselect htone hcode)).symm
  case sawtooth =>
    intro htone hcode
    rw [Int.fdiv_eq_ediv_of_nonneg _ (by decide)]
    exact (Except.ok.inj (hselect htone hcode)).symm
  case pulse => exact fun htone hcode => (Except.ok.inj (hselect htone hcode)).symm

/-- Settles O26, field by field of the advanced record. -/
theorem renderedRecord : Obligations.RenderedRecord := by
  intro sr p a ch ch' hok hactive hrender
  obtain ⟨-, -, -, rfl⟩ := (Channel.render_active_eq_ok hactive).1 hrender
  refine ⟨⟨rfl, rfl, rfl, rfl⟩, ?phase, ?lfsr, hok.playable.advanced_envLevel sr, activeAfter_iff _, ?freq⟩
  case phase =>
    split
    · next hnoise => exact congrArg BitVec.toNat (if_pos hnoise)
    · next htone => rw [← phaseInc_toNat, ← BitVec.toNat_add]; exact congrArg BitVec.toNat (if_neg htone)
  case lfsr => simp only [Channel.advanced, apply_ite BitVec.toNat, lfsrStep_toNat]
  case freq =>
    obtain ⟨-, -, -, -, -, hmult, -⟩ := hok
    split
    · next hone => exact congrArg BitVec.toNat (if_pos hone)
    · next hone => exact sweepFreq_toNat hmult hone

/-- Settles O30: an inactive record stays, an active one's level is multiplied by a factor of at most 1.0. -/
theorem envelopeNeverRises : Obligations.EnvelopeNeverRises := by
  intro sr p a ch ch' hok hrender
  cases hactive : ch.active with
  | false =>
    obtain ⟨-, rfl⟩ : 0 = a ∧ ch = ch' := by simpa [Channel.render_inactive hactive] using hrender
    exact ⟨le_rfl, fun h => absurd h (by decide)⟩
  | true =>
    obtain ⟨-, -, -, rfl⟩ := (Channel.render_active_eq_ok hactive).1 hrender
    rw [hok.playable.advanced_envLevel]
    exact ⟨decayStep_le hok.playable.decay _, fun _ hlt hpos => decayStep_lt hlt hpos⟩

/-- Settles O31: every trigger leaves PHASE 0, the level 1.0 and, for noise, a seed with bit 0 set. -/
theorem firstSampleAfterATrigger : Obligations.FirstSampleAfterATrigger := by
  intro sr p decay f freq wave lfsr
  have hfirst {ch : Channel} {w : Int} (hactive : ch.active = true) (hlevel : ch.envLevel = Config.envOne) (hw : channelWave p ch = .ok w) :
      ∃ ch', ch.render sr p = .ok (w, ch') :=
    ⟨_, (Channel.render_active_eq_ok hactive).2 ⟨w, hw, by rw [hlevel, applyEnvelope_one], rfl⟩⟩
  have hsaw : sawtoothWave p 0 = -p := by simp [sawtoothWave]
  have hnoise : noiseWave p Config.snareSeed = p := if_pos (by decide)
  exact ⟨hfirst rfl rfl rfl, hfirst rfl rfl (congrArg Except.ok hsaw), hfirst rfl rfl rfl, hfirst rfl rfl rfl,
    hfirst rfl rfl (congrArg Except.ok hnoise)⟩

/-! ### One record of a bank -/

/-- Settles O27: the record put back is the record that stood there. -/
theorem inactiveChannelIsFrozen : Obligations.InactiveChannelIsFrozen := by
  intro sr p b c hinactive
  exact (renderSample_eq_ok c.isLt).2 ⟨b[c], Channel.render_inactive hinactive, (Bank.set_self b c.isLt).symm⟩

/-- Settles O28: both banks render the one record `b1[c] = b2[c]` and put the same record back. -/
theorem renderSampleIsIsolated : Obligations.RenderSampleIsIsolated := by
  intro sr p b1 b2 c a b1' hsame hrender
  obtain ⟨ch, hch, rfl⟩ := (renderSample_eq_ok c.isLt).1 hrender
  have hframe (b : Bank) (i : Fin 5) (hi : i ≠ c) : (Vector.set b c ch c.isLt)[i] = b[i] :=
    Vector.getElem_set_ne c.isLt i.isLt fun h => hi (Fin.ext h.symm)
  have hch2 : b2[c].render sr p = .ok (a, ch) := hsame ▸ hch
  exact ⟨hframe b1, _, (renderSample_eq_ok c.isLt).2 ⟨ch, hch2, rfl⟩, by simp, hframe b2⟩

/-- Settles O29 from the bounds of one rendered sample of a good bank. -/
theorem renderedAmplitudeIsBounded : Obligations.RenderedAmplitudeIsBounded := by
  intro sr v b c hb
  obtain ⟨a, b', hrender, hlo, hhi, -⟩ := renderSample_spec (sr := sr) (peak_nonneg v) hb c.isLt
  exact ⟨a, b', hrender, abs_le.2 ⟨hlo, hhi⟩, peak_le v⟩

end Sys2Proof.Machine
end

section
/-! SUPPORT. Many steps of the decay, of the pitch sweep and of the noise register, on natural numbers: what holds of every number of them, and the
values the spec states (40_channelbank.md R95, R96, R100). Long runs are evaluated between checkpoints, so that each evaluation stays shallow. -/

namespace Sys2Proof.Machine

/-- Checkpoints `n` steps apart, each evaluated from the one before, give the value at the last. -/
theorem iterate_of_checkpoints {f : Nat → Nat} {n a : Nat} {rest : List Nat} (h : List.IsChain (fun x y => f^[n] x = y) (a :: rest)) :
    f^[n * rest.length] a = (a :: rest).getLast (by simp) := by
  induction rest generalizing a with
  | nil => rfl
  | cons b rest ih =>
    obtain ⟨hab, hrest⟩ := List.isChain_cons_cons.1 h
    rw [List.length_cons, Nat.mul_succ, Function.iterate_add_apply, hab, ih hrest, List.getLast_cons_cons]

/-! ### Decay -/

theorem iterate_decayStep_antitone {d : Nat} (hd : d ≤ 2 ^ 24) (x : Nat) {j k : Nat} (h : j ≤ k) :
    (decayStep d)^[k] x ≤ (decayStep d)^[j] x :=
  Function.antitone_iterate_of_le_id (decayStep_le hd) h x

theorem kickLevel_at_2107 : (decayStep 0xFFEC57)^[2107] (2 ^ 24) = 8915230 := by decide +kernel

theorem kickLevel_at_22705 : (decayStep 0xFFEC57)^[22705] (2 ^ 24) = 16777 :=
  iterate_of_checkpoints (n := 4541) (rest := [4294235, 1098216, 279934, 70435, 16777]) (by decide +kernel)

/-- The Kick's level is not below ENV_EPSILON in its first 22705 samples. -/
theorem kickLevel_loud {k : Nat} (hk : k ≤ 22705) : 16777 ≤ (decayStep 0xFFEC57)^[k] (2 ^ 24) :=
  kickLevel_at_22705.ge.trans (iterate_decayStep_antitone (by decide) _ hk)

theorem snareLevel_at_5732 : (decayStep 0xFFB15B)^[5732] (2 ^ 24) = 16786 := by decide +kernel

theorem hatLevel_at_2295 : (decayStep 0xFF3B64)^[2295] (2 ^ 24) = 16823 := by decide +kernel

/-! ### Pitch sweep -/

theorem sweepStep_floor {m : Nat} (hm : m ≤ 2 ^ 24) : sweepStep m (30 * 2 ^ 16) = 30 * 2 ^ 16 := max_eq_right (decayStep_le hm _)

theorem sweepStep_lt {m x : Nat} (hm : m < 2 ^ 24) (hx : 30 * 2 ^ 16 < x) : sweepStep m x < x :=
  max_lt (decayStep_lt hm (by omega)) hx

/-- As long as the plain decay is not below the floor, the sweep is that decay. -/
theorem iterate_sweepStep_eq {m x k : Nat} (hm : m ≤ 2 ^ 24) (h : 30 * 2 ^ 16 ≤ (decayStep m)^[k] x) :
    (sweepStep m)^[k] x = (decayStep m)^[k] x := by
  induction k generalizing x with
  | zero => rfl
  | succ k ih =>
    rw [Function.iterate_succ_apply] at h
    have hstep : sweepStep m x = decayStep m x := max_eq_left (h.trans (iterate_decayStep_antitone hm _ k.zero_le))
    rw [Function.iterate_succ_apply, Function.iterate_succ_apply, hstep, ih h]

theorem kickDecay_at_2106 : (decayStep 0xFFC505)^[2106] (200 * 2 ^ 16) = 1967447 := by decide +kernel

/-- The Kick's frequency is above 30 Hz before its sample 2107 (R95). -/
theorem floor_lt_kickFreq {k : Nat} (hk : k < 2107) : 30 * 2 ^ 16 < (sweepStep 0xFFC505)^[k] (200 * 2 ^ 16) := by
  have hfree : 30 * 2 ^ 16 < (decayStep 0xFFC505)^[k] (200 * 2 ^ 16) :=
    calc 30 * 2 ^ 16 < 1967447 := by decide
      _ = (decayStep 0xFFC505)^[2106] (200 * 2 ^ 16) := kickDecay_at_2106.symm
      _ ≤ (decayStep 0xFFC505)^[k] (200 * 2 ^ 16) := iterate_decayStep_antitone (by decide) _ (Nat.le_of_lt_succ hk)
  rwa [iterate_sweepStep_eq (by decide) hfree.le]

theorem kickFreq_at_2107 : (sweepStep 0xFFC505)^[2107] (200 * 2 ^ 16) = 30 * 2 ^ 16 := by
  rw [Function.iterate_succ_apply', iterate_sweepStep_eq (by decide) (kickDecay_at_2106.symm ▸ by decide), kickDecay_at_2106]
  decide

/-! ### Noise register -/

theorem iterate_lfsrStep_toNat (k : Nat) (l : BitVec 15) : (lfsrStep^[k] l).toNat = noiseStep^[k] l.toNat :=
  Function.Semiconj.iterate_right lfsrStep_toNat_eq_noiseStep k l

/-- Seven runs of 4681 steps lead from the seed back to it (R89). -/
theorem noiseStep_checkpoints :
    List.IsChain (fun x y => noiseStep^[4681] x = y) [0x7FFF, 7660, 19167, 25107, 22323, 10444, 13600, 0x7FFF] := by decide +kernel

theorem noiseStep_at_32767 : noiseStep^[4681 * 7] 0x7FFF = 0x7FFF := (iterate_of_checkpoints noiseStep_checkpoints :)

theorem noiseStep_at_4681 : noiseStep^[4681] 0x7FFF = 7660 := (List.isChain_cons_cons.1 noiseStep_checkpoints).1

theorem noiseStep_at_1057 : noiseStep^[1057] 0x7FFF = 736 := by decide +kernel

theorem noiseStep_at_217 : noiseStep^[217] 0x7FFF = 10982 := by decide +kernel

/-- A period is the least one when none of its quotients by a prime is a period. -/
theorem minimalPeriod_eq_of_prime_quotients {α : Type} {f : α → α} {x : α} {n : Nat} (hper : Function.IsPeriodicPt f n x)
    (hquot : ∀ q, q.Prime → q ∣ n → ¬ Function.IsPeriodicPt f (n / q) x) : Function.minimalPeriod f x = n := by
  obtain ⟨a, ha⟩ := hper.minimalPeriod_dvd
  by_contra hne
  have ha1 : a ≠ 1 := by rintro rfl; exact hne (by rw [ha, mul_one])
  have hdvd : a.minFac * Function.minimalPeriod f x ∣ n := by rw [ha, mul_comm]; exact mul_dvd_mul_left _ a.minFac_dvd
  exact hquot a.minFac (Nat.minFac_prime ha1) (dvd_of_mul_right_dvd hdvd)
    (Function.isPeriodicPt_iff_minimalPeriod_dvd.2 (Nat.dvd_div_of_mul_dvd hdvd))

theorem prime_dvd_32767 {q : Nat} (hq : q.Prime) (h : q ∣ 32767) : q = 7 ∨ q = 31 ∨ q = 151 := by
  rw [show 32767 = 7 * (31 * 151) from rfl, hq.dvd_mul, hq.dvd_mul, Nat.prime_dvd_prime_iff_eq hq (by norm_num),
    Nat.prime_dvd_prime_iff_eq hq (by norm_num), Nat.prime_dvd_prime_iff_eq hq (by norm_num)] at h
  exact h

/-- The period of the noise register from its seed is 32767 = 7 * 31 * 151 and no less (R89). -/
theorem noiseStep_minimalPeriod : Function.minimalPeriod noiseStep 0x7FFF = 32767 := by
  refine minimalPeriod_eq_of_prime_quotients noiseStep_at_32767 fun q hq hdvd hper => ?_
  rcases prime_dvd_32767 hq hdvd with rfl | rfl | rfl
  · exact absurd (noiseStep_at_4681.symm.trans hper) (by decide)
  · exact absurd (noiseStep_at_1057.symm.trans hper) (by decide)
  · exact absurd (noiseStep_at_217.symm.trans hper) (by decide)

/-- Settles O33: the register on natural numbers has the minimal period 32767, and zero is a fixed point. -/
theorem noiseRegisterNeverSticks : Obligations.NoiseRegisterNeverSticks := by
  refine ⟨fun _ => lfsrStep_ne_zero, by decide, by decide, ?period, ?noFewer, ?zero, by decide, by decide⟩
  case period => exact BitVec.eq_of_toNat_eq ((iterate_lfsrStep_toNat _ _).trans noiseStep_at_32767)
  case noFewer =>
    intro k hpos hlt hk
    have hper : noiseStep^[k] 0x7FFF = 0x7FFF := (iterate_lfsrStep_toNat k 0x7FFF#15).symm.trans (congrArg BitVec.toNat hk)
    exact Function.not_isPeriodicPt_of_pos_of_lt_minimalPeriod hpos.ne' (hlt.trans_eq noiseStep_minimalPeriod.symm) hper
  case zero =>
    intro k p
    have hzero : lfsrStep 0 = 0 := by decide
    rw [Function.iterate_fixed hzero]
    exact if_neg (by decide)

end Sys2Proof.Machine
end

section
/-! SUPPORT. What `k` samples leave of a record, as long as its level is not below ENV_EPSILON (R91) and after (R86). -/

namespace Sys2Proof.Machine

open Sys2Proof.Certificates

theorem samples_inactive {sr : Nat} {p : Int} {ch : Channel} (h : ch.active = false) (k : Nat) : samples sr p k ch = .ok ch := by
  induction k with
  | zero => rfl
  | succ k ih => simp [samples, Channel.render_inactive h, ih]

theorem samples_add (sr : Nat) (p : Int) (m n : Nat) (ch : Channel) :
    samples sr p (m + n) ch = (do let ch ← samples sr p m ch; samples sr p n ch) := by
  induction m generalizing ch with
  | zero => simp [samples]
  | succ m ih => simp only [Nat.succ_add, samples, ih, bind_assoc]

namespace Channel.Playable

variable {sr : Nat} {p : Int} {ch : Channel} (h : ch.Playable)
include h

theorem samples_succ (ha : ch.active = true) (k : Nat) : samples sr p (k + 1) ch = samples sr p k (ch.advanced sr) := by
  obtain ⟨a, hrender⟩ := h.render_active sr p ha
  simp [samples, hrender]

theorem iterate_advanced (sr k : Nat) : ((Channel.advanced sr)^[k] ch).Playable := by
  induction k generalizing ch with
  | zero => exact h
  | succ k ih => exact ih (h.advanced sr)

theorem iterate_advanced_envLevel (sr k : Nat) :
    ((Channel.advanced sr)^[k] ch).envLevel.toNat = (decayStep ch.envDecay.toNat)^[k] ch.envLevel.toNat := by
  induction k generalizing ch with
  | zero => rfl
  | succ k ih =>
    rw [Function.iterate_succ_apply, Function.iterate_succ_apply, ih (h.advanced sr), h.advanced_envLevel]
    rfl

/-- While the decayed level is at least ENV_EPSILON, every sample advances the record and leaves it active. -/
theorem samples_eq (ha : ch.active = true) {k : Nat} (hloud : 16777 ≤ (decayStep ch.envDecay.toNat)^[k] ch.envLevel.toNat) :
    samples sr p k ch = .ok ((Channel.advanced sr)^[k] ch) ∧ ((Channel.advanced sr)^[k] ch).active = true := by
  induction k generalizing ch with
  | zero => exact ⟨rfl, ha⟩
  | succ k ih =>
    rw [Function.iterate_succ_apply, ← h.advanced_envLevel sr] at hloud
    have hactive : (ch.advanced sr).active = true :=
      (activeAfter_iff _).2 (hloud.trans (iterate_decayStep_antitone h.decay _ k.zero_le))
    rw [h.samples_succ ha]
    exact ih (h.advanced sr) hactive hloud

/-- R100: a voice triggered at the level 1.0 sounds for `n + 1` samples when its level is not below ENV_EPSILON after `n` of them and is
below it one decay later. -/
theorem ringOut {d n l : Nat} (hn : (decayStep d)^[n] (2 ^ 24) = l) (hloud : 16777 ≤ l) (hend : decayStep d l < 16777)
    (ha : ch.active = true) (hlevel : ch.envLevel = Config.envOne) (hd : ch.envDecay.toNat = d) :
    (∀ k, k < n + 1 → ∃ ch', samples sr p k ch = .ok ch' ∧ ch'.active = true) ∧
      ∃ ch', samples sr p (n + 1) ch = .ok ch' ∧ ch'.active = false := by
  have hlast : (decayStep ch.envDecay.toNat)^[n] ch.envLevel.toNat = l := by rw [hlevel, hd]; exact hn
  have hrun {k : Nat} (hk : k ≤ n) := h.samples_eq (sr := sr) (p := p) ha
    ((hlast.symm ▸ hloud).trans (iterate_decayStep_antitone h.decay _ hk))
  obtain ⟨hsamples, hactive⟩ := hrun le_rfl
  refine ⟨fun k hk => ⟨_, hrun (Nat.le_of_lt_succ hk)⟩, (Channel.advanced sr)^[n + 1] ch, ?reached, ?silent⟩
  case reached =>
    rw [samples_add, hsamples, Function.iterate_succ_apply']
    exact (h.iterate_advanced sr n).samples_succ hactive 0
  case silent =>
    have hfinal : ((Channel.advanced sr)^[n + 1] ch).envLevel.toNat = decayStep d l := by
      rw [h.iterate_advanced_envLevel, Function.iterate_succ_apply', hlast, hd]
    rw [Function.iterate_succ_apply'] at hfinal ⊢
    exact Bool.eq_false_iff.2 fun hstill => absurd ((activeAfter_iff _).1 hstill) (Nat.not_le_of_lt (hfinal.trans_lt hend))

end Channel.Playable

theorem kickHit_playable (lfsr : BitVec 15) : (kickHit lfsr).Playable where
  source := .inr (Nat.zero_le 2)
  level := le_rfl
  decay := show 0xFFEC57 ≤ 2 ^ 24 by decide

theorem noiseHit_playable {decay : Q24} (hd : decay.toNat ≤ 2 ^ 24) (freq : Word) (wave : WaveCode) : (noiseHit decay freq wave).Playable where
  source := .inl rfl
  level := le_rfl
  decay := hd

theorem melodicNote_playable {decay : Q24} {wave : WaveCode} (hd : decay.toNat ≤ 2 ^ 24) (hw : wave.toNat ≤ 2) (f : Nat) (lfsr : BitVec 15) :
    (melodicNote decay f wave lfsr).Playable where
  source := .inr hw
  level := le_rfl
  decay := hd

/-- Settles O34: each preset's level crosses ENV_EPSILON at its last sample; without decay a level stays 1.0. -/
theorem ringOutLengths : Obligations.RingOutLengths := by
  intro sr p lfsr freq wave
  refine ⟨?kick, ?snare, ?hat, ?melodic⟩
  case kick => exact (kickHit_playable lfsr).ringOut kickLevel_at_22705 (by decide) (by decide) rfl rfl rfl
  case snare => exact (noiseHit_playable (by decide) freq wave).ringOut snareLevel_at_5732 (by decide) (by decide) rfl rfl rfl
  case hat => exact (noiseHit_playable (by decide) freq wave).ringOut hatLevel_at_2295 (by decide) (by decide) rfl rfl rfl
  case melodic =>
    intro f k hw
    have hlevel : (decayStep (2 ^ 24))^[k] (2 ^ 24) = 2 ^ 24 := Function.iterate_fixed (decayStep_one _) k
    exact ⟨_, (melodicNote_playable le_rfl hw f lfsr).samples_eq rfl (hlevel.symm ▸ by decide)⟩

/-! ### Frequency -/

/-- The frequency after `k` samples of a swept record (R92, R93). -/
theorem iterate_advanced_freq (sr k : Nat) {ch : Channel} (hm : ch.pitchMult.toNat ≤ 2 ^ 24) (hne : ch.pitchMult ≠ Config.envOne) :
    ((Channel.advanced sr)^[k] ch).freq.toNat = (sweepStep ch.pitchMult.toNat)^[k] ch.freq.toNat := by
  induction k generalizing ch with
  | zero => rfl
  | succ k ih =>
    have hstep : (ch.advanced sr).freq.toNat = sweepStep ch.pitchMult.toNat ch.freq.toNat := sweepFreq_toNat hm hne
    rw [Function.iterate_succ_apply, Function.iterate_succ_apply, ← hstep]
    exact ih hm hne

theorem iterate_advanced_pitchMult (sr k : Nat) (ch : Channel) : ((Channel.advanced sr)^[k] ch).pitchMult = ch.pitchMult :=
  congrFun (Function.iterate_invariant (f := Channel.advanced sr) (g := Channel.pitchMult) rfl k) ch

/-- Once at 30 Hz a swept record stays there, sounding or not. -/
theorem samples_keep_floor {sr : Nat} {p : Int} {ch : Channel} (h : ch.Playable) (hm : ch.pitchMult.toNat ≤ 2 ^ 24)
    (hne : ch.pitchMult ≠ Config.envOne) (hf : ch.freq.toNat = 30 * 2 ^ 16) (k : Nat) :
    ∃ ch', samples sr p k ch = .ok ch' ∧ ch'.freq.toNat = 30 * 2 ^ 16 := by
  induction k generalizing ch with
  | zero => exact ⟨ch, rfl, hf⟩
  | succ k ih =>
    cases ha : ch.active with
    | false => exact ⟨ch, samples_inactive ha _, hf⟩
    | true =>
      have hnext : (ch.advanced sr).freq.toNat = 30 * 2 ^ 16 :=
        (sweepFreq_toNat hm hne).trans (by rw [hf]; exact sweepStep_floor hm)
      rw [h.samples_succ ha]
      exact ih (h.advanced sr) hm hne hnext

/-- Settles O32: the sweep is above 30 Hz and falls until its sample 2107, and stays at 30 Hz; the level is far above ENV_EPSILON there. -/
theorem kickSweepFallsToThirtyHertz : Obligations.KickSweepFallsToThirtyHertz := by
  intro sr p lfsr
  have hplay := kickHit_playable lfsr
  have hmult_le : (kickHit lfsr).pitchMult.toNat ≤ 2 ^ 24 := show 0xFFC505 ≤ 2 ^ 24 by decide
  have hmult : (kickHit lfsr).pitchMult ≠ Config.envOne := show 0xFFC505#25 ≠ Config.envOne by decide
  have hfreq (k : Nat) : ((Channel.advanced sr)^[k] (kickHit lfsr)).freq.toNat = (sweepStep 0xFFC505)^[k] (200 * 2 ^ 16) :=
    iterate_advanced_freq sr k hmult_le hmult
  have hsamples {k : Nat} (hk : k ≤ 2107) : samples sr p k (kickHit lfsr) = .ok ((Channel.advanced sr)^[k] (kickHit lfsr)) :=
    (hplay.samples_eq rfl (kickLevel_loud (hk.trans (by decide)))).1
  refine ⟨?falls, ?stays, ?level⟩
  case falls =>
    intro k hk
    have hfloor := floor_lt_kickFreq hk
    refine ⟨_, _, hsamples hk.le, hsamples hk, (hfreq k).symm ▸ hfloor, ?_⟩
    rw [hfreq, hfreq, Function.iterate_succ_apply']
    exact sweepStep_lt (by decide) hfloor
  case stays =>
    intro k hk
    obtain ⟨j, rfl⟩ := Nat.exists_eq_add_of_le hk
    rw [samples_add, hsamples le_rfl]
    have hkept := iterate_advanced_pitchMult sr 2107 (kickHit lfsr)
    exact samples_keep_floor (hplay.iterate_advanced sr _) (by rwa [hkept]) (by rwa [hkept]) ((hfreq _).trans kickFreq_at_2107) j
  case level =>
    have hlevel := (hplay.iterate_advanced_envLevel sr 2107).trans kickLevel_at_2107
    exact ⟨_, hsamples le_rfl, (hplay.samples_eq (p := p) rfl (kickLevel_loud (by decide))).2, hlevel⟩

end Sys2Proof.Machine
end

section
/-! SUPPORT. The records triggerStep leaves, as the statements write them out (40_channelbank.md R73 to R77, 41_pattern_dispatch.md R104). -/

namespace Sys2Proof.Machine

open Sys2Proof.Certificates

/-- A melodic trigger with a waveform code (R73): only the LFSR is left of the record before it. -/
theorem Channel.triggered_eq_melodicNote (ch : Channel) (f : Nat) (w : WaveCode) (decay : Q24) :
    ch.triggered f w.toNat decay = melodicNote decay f w ch.lfsr := by
  simp [Channel.triggered, melodicNote]

theorem Channel.kicked_eq_kickHit (ch : Channel) : ch.kicked = kickHit ch.lfsr := rfl

/-- Snare and Hat seed their LFSR alike (R75, R76). -/
theorem Channel.noised_eq_noiseHit (ch : Channel) (decay : Q24) : ch.noised decay 0x7FFF#15 = noiseHit decay ch.freq ch.wave := rfl

/-- A note triggers, a rest releases (R104). -/
theorem steppedMelodic_eq_melodicAfterStep (decay : Q24) (cell : MelCell) (ch : Channel) :
    steppedMelodic decay cell ch = melodicAfterStep decay cell ch := by
  have hrest : cell.freqHz.toNat ≠ 0 ↔ ¬ cell.freqHz = 0 := by rw [← BitVec.toNat_inj]; rfl
  simp only [steppedMelodic, melodicAfterStep, hrest, ite_not, Channel.triggered_eq_melodicNote]
  rfl

/-- Settles O35: the five records of `triggerStep_eq`, each in the statement's form. -/
theorem triggerStepFiresEachTrack : Obligations.TriggerStepFiresEachTrack := by
  intro decay p b s hp
  refine ⟨_, triggerStep_eq hp s.isLt b, ?lead, ?bass, ?kick, ?snare, ?hat⟩
  case lead => exact steppedMelodic_eq_melodicAfterStep ..
  case bass => exact steppedMelodic_eq_melodicAfterStep ..
  case kick => rw [← Channel.kicked_eq_kickHit]; rfl
  case snare => rw [← Channel.noised_eq_noiseHit]; rfl
  case hat => rw [← Channel.noised_eq_noiseHit]; rfl

end Sys2Proof.Machine
end

section
/-! SUPPORT. A melodic cell written by SET_MELODIC_STEP, at the readback port (41_pattern_dispatch.md R105, 44_commands.md R147). -/

namespace Sys2Proof.Machine

/-- Operands in range are stored whole, so the readback word has both (R105). -/
theorem melWord_ofNat {f w : Nat} (hf : f ≤ 65535) (hw : w ≤ 2) : melWord ⟨BitVec.ofNat 16 f, BitVec.ofNat 2 w⟩ = w * 65536 + f := by
  simp only [melWord, BitVec.toNat_ofNat]
  omega

/-- SET_MELODIC_STEP leaves its cell in the PatternStore (R147). -/
theorem mel_after_setMelodicStep {s t : State} {a0 a1 a2 a3 : Word} {rest : List Word}
    (h : exec (.setMelodicStep (a0 :: a1 :: a2 :: a3 :: rest)) s = .next t) (ht : melodicTrackArg a0 < 2) (hs : stepArg a1 < 16) :
    t.pattern.mel[melodicTrackArg a0][stepArg a1] = ⟨BitVec.ofNat 16 (frequencyArg a2), BitVec.ofNat 2 (waveformArg a3)⟩ := by
  cases (execSetMelodicStep_eq a0 a1 a2 a3 rest s ht hs).symm.trans h
  exact (getElem_setMel s.pattern.mel ht hs ht hs _).trans (if_pos ⟨rfl, rfl⟩)

/-- Settles O52: the address reads the cell the command has written. -/
theorem melodicStepReadsBack : Obligations.MelodicStepReadsBack := by
  intro s t a0 a1 a2 a3 rest h
  have htrack : melodicTrackArg a0 < 2 := Nat.lt_succ_of_le (melodicTrackArg_le a0)
  have hstep : stepArg a1 < 16 := Nat.lt_succ_of_le (stepArg_le a1)
  have hword : melWord t.pattern.mel[melodicTrackArg a0][stepArg a1] = waveformArg a3 * 65536 + frequencyArg a2 := by
    rw [mel_after_setMelodicStep h htrack hstep, melWord_ofNat (frequencyArg_le a2) (waveformArg_le a3)]
  exact (readback_mel t htrack hstep).trans (congrArg _ hword)

end Sys2Proof.Machine
end

section
/-! SUPPORT. What each command may write of the PatternStore and of the sequencer (41_pattern_dispatch.md R107, 10_state.md R28 to R31). -/

namespace Sys2Proof.Machine

theorem exportSession_keeps_pattern_seq {status : BitVec 2} {os : List PortOutput} {inside : List (List SideEvent)} {s t : State}
    (h : exportSession status os inside s = .next t) : t.pattern = s.pattern ∧ t.seq = s.seq := by
  obtain ⟨_, _, ht, -⟩ := exportSession_cases h
  rw [ht]
  exact ⟨rfl, rfl⟩

/-- EXPORT writes neither the PatternStore nor the sequencer, whatever falls inside it (R131, R171). -/
theorem runExport_keeps_pattern_seq {n : Nat} {s t : State} (h : runExport n s = .next t) : t.pattern = s.pattern ∧ t.seq = s.seq := by
  rcases runExport_cases h with ⟨-, hsession⟩ | ⟨fs, x, -, -, hsession⟩
  · exact exportSession_keeps_pattern_seq (s := sinkOpened s) hsession
  · exact exportSession_keeps_pattern_seq (s := ((sinkOpened s).withScratch x).withFrameBuf _) hsession

namespace CommandEffect

variable {s t : State} {i : Instr}

/-- The PatternStore after a command: as before, but for the three commands that write it (R107). -/
theorem pattern_cases (h : CommandEffect s i t) :
    t.pattern = s.pattern ∨ (∃ args, i = .setMelodicStep args) ∨ (∃ args, i = .setDrumStep args) ∨ i = .seqClear := by
  cases h with
  | melodicStep => exact .inr (.inl ⟨_, rfl⟩)
  | drumStep => exact .inr (.inr (.inl ⟨_, rfl⟩))
  | clear => exact .inr (.inr (.inr rfl))
  | recorded a0 rest hrun => exact .inl (runExport_keeps_pattern_seq hrun).1
  | _ => exact .inl rfl

/-- The sequencer after a command: as before, but for the three commands that write fields of it (R28 to R31). -/
theorem seq_cases (h : CommandEffect s i t) :
    t.seq = s.seq ∨ (∃ args bpm, i = .setBpm args ∧ t.seq = { s.seq with bpm := bpm }) ∨
    (i = .seqStart ∧ t.seq = { s.seq with running := true, currentStep := 0, lastStepTs := s.now }) ∨
    (i = .seqStop ∧ t.seq = { s.seq with running := false }) := by
  cases h with
  | bpm => exact .inr (.inl ⟨_, _, rfl, rfl⟩)
  | start => exact .inr (.inr (.inl ⟨rfl, rfl⟩))
  | stop => exact .inr (.inr (.inr ⟨rfl, rfl⟩))
  | recorded a0 rest hrun => exact .inl (runExport_keeps_pattern_seq hrun).2
  | _ => exact .inl rfl

end CommandEffect

/-- Settles O60 from what a command can leave of the PatternStore and of the sequencer. -/
theorem onlyTheNamedCommandsWritePatternAndSequencer : Obligations.OnlyTheNamedCommandsWritePatternAndSequencer := by
  intro i s t h
  have heffect := exec_effect h
  refine ⟨heffect.pattern_cases.resolve_left, ?_⟩
  rcases heffect.seq_cases with hseq | ⟨args, bpm, rfl, hseq⟩ | ⟨rfl, hseq⟩ | ⟨rfl, hseq⟩ <;> simp [hseq]

end Sys2Proof.Machine
end

section
/-! SUPPORT. What one clock tick does (42_sequencer.md R113), what `n` fired steps leave (R115 to R118), and the elapsed time after them (R119). -/

namespace Sys2Proof.Machine

open Sys2Proof.Certificates

/-! ### The step length -/

/-- Settles O36: the bounds of a floor division whose divisor lies in [40, 240]. -/
theorem stepLengthIsInRange : Obligations.StepLengthIsInRange := by
  intro bpm hlo hhi
  have hpos : 0 < bpm.toNat := by omega
  refine ⟨?least, ?greatest, Nat.div_mul_le_self _ _, Nat.lt_mul_of_div_lt (Nat.lt_succ_self _) hpos⟩
  case least => exact (Nat.le_div_iff_mul_le hpos).2 (by omega)
  case greatest => exact Nat.div_le_of_le_mul (by omega)

/-! ### One tick -/

theorem clockTick_idle {s : State} (h : s.seq.running = false ∨ (s.now - s.seq.lastStepTs).toNat < stepUs s.seq.bpm) :
    clockTick s = .ok s := by
  refine if_neg fun hdue => ?_
  obtain ⟨hrun, hstep⟩ := Bool.and_eq_true_iff.1 hdue
  rcases h with hstopped | hearly
  · exact absurd hrun (by simp [hstopped])
  · exact absurd (of_decide_eq_true hstep) (Nat.not_le_of_lt hearly)

/-- A due tick (R113): the triggers of the current step succeed, and the tick leaves what `fireStep` makes of their bank. -/
theorem clockTick_due {s : State} (hp : s.pattern.Ok) (hrun : s.seq.running = true)
    (hdue : stepUs s.seq.bpm ≤ (s.now - s.seq.lastStepTs).toNat) :
    ∃ b, triggerStep s.params.melodicDecay s.pattern s.live s.seq.currentStep.toNat = .ok b ∧
      clockTick s = .ok (((s.withLive b).emit [.notify s.seq.currentStep]).withSeq
        { s.seq with
          lastStepTs := s.seq.lastStepTs + BitVec.ofNat 32 (stepUs s.seq.bpm)
          currentStep := s.seq.currentStep + 1 }) := by
  have htrigger := triggerStep_eq (decay := s.params.melodicDecay) hp s.seq.currentStep.isLt s.live
  refine ⟨_, htrigger, ?_⟩
  have hfires : (s.seq.running && stepDue s) = true := Bool.and_eq_true_iff.2 ⟨hrun, decide_eq_true hdue⟩
  rw [clockTick, if_pos hfires, fireStep, htrigger, op_bind_ok]

/-- Settles O38: in both cases the guard of the tick is false. -/
theorem earlyOrStoppedTickDoesNothing : Obligations.EarlyOrStoppedTickDoesNothing := fun _ => clockTick_idle

/-- Settles O37: the state that `clockTick_due` writes out, field by field. -/
theorem dueTickFiresOneStep : Obligations.DueTickFiresOneStep := by
  intro s hp hrun hdue
  obtain ⟨b, htrigger, htick⟩ := clockTick_due hp hrun hdue
  refine ⟨_, htick, htrigger, rfl, hrun, rfl, ?reference, ?pointer⟩
  case reference => exact (BitVec.toNat_add ..).trans (by rw [BitVec.toNat_ofNat, Nat.add_mod_mod, stepUs])
  case pointer => exact BitVec.toNat_add ..

/-! ### Several steps -/

theorem notifications_succ (i : BitVec 4) (n : Nat) : notifications i (n + 1) = notifications i n ++ [.notify (i + BitVec.ofNat 4 n)] := by
  simp [notifications, List.range_succ]

/-- What `n` fired steps make of `s`, as far as the next tick reads it: the time reference and the pointer advance, each index is notified
(R115, R117, R118). -/
structure FiredSteps (n : Nat) (s t : State) : Prop where
  trace : t.trace = s.trace ++ notifications s.seq.currentStep n
  seq : t.seq = { s.seq with
    lastStepTs := s.seq.lastStepTs + BitVec.ofNat 32 (n * stepUs s.seq.bpm)
    currentStep := s.seq.currentStep + BitVec.ofNat 4 n }
  pattern : t.pattern = s.pattern

/-- The time from `base + b` to `base + a` is `a - b`, across a wrap of the clock too (R119). -/
theorem toNat_add_sub_add (base : Word) {a b : Nat} (hle : b ≤ a) (hlt : a - b < 2 ^ 32) :
    (base + BitVec.ofNat 32 a - (base + BitVec.ofNat 32 b)).toNat = a - b := by
  have hsplit : BitVec.ofNat 32 a = BitVec.ofNat 32 (a - b) + BitVec.ofNat 32 b := by rw [← BitVec.ofNat_add, Nat.sub_add_cancel hle]
  have hdiff : base + BitVec.ofNat 32 a - (base + BitVec.ofNat 32 b) = BitVec.ofNat 32 (a - b) := by
    rw [hsplit]; ring
  rw [hdiff, BitVec.toNat_ofNat, Nat.mod_eq_of_lt hlt]

namespace FiredSteps

theorem zero (s : State) : FiredSteps 0 s s where
  trace := by simp [notifications]
  seq := by simp
  pattern := rfl

variable {n e : Nat} {s t : State} (h : FiredSteps n s t)
include h

/-- A tick reads the time of its own iteration, whatever it was before. -/
theorem withNow (now : Word) : FiredSteps n s (t.withNow now) := ⟨h.trace, h.seq, h.pattern⟩

theorem bpm : t.seq.bpm = s.seq.bpm := by rw [h.seq]

theorem running : t.seq.running = s.seq.running := by rw [h.seq]

theorem lastStepTs : t.seq.lastStepTs = s.seq.lastStepTs + BitVec.ofNat 32 (n * stepUs s.seq.bpm) := by rw [h.seq]

/-- The time left of `e` after `n` steps (R115). -/
theorem elapsed (hnow : t.now = s.seq.lastStepTs + BitVec.ofNat 32 e) (hle : n * stepUs s.seq.bpm ≤ e)
    (hlt : e - n * stepUs s.seq.bpm < 2 ^ 32) : (t.now - t.seq.lastStepTs).toNat = e - n * stepUs s.seq.bpm := by
  rw [hnow, h.lastStepTs, toNat_add_sub_add _ hle hlt]

/-- `elapsed` with the clock standing still. -/
theorem elapsed_of_now_eq (hnow : t.now = s.now) (hle : n * stepUs s.seq.bpm ≤ (s.now - s.seq.lastStepTs).toNat) :
    (t.now - t.seq.lastStepTs).toNat = (s.now - s.seq.lastStepTs).toNat - n * stepUs s.seq.bpm := by
  refine h.elapsed (hnow.trans ?_) hle ((Nat.sub_le ..).trans_lt (s.now - s.seq.lastStepTs).isLt)
  rw [ofNat_toNat_word]
  ring

theorem clockTick_due (hp : s.pattern.Ok) (hrun : s.seq.running = true)
    (hdue : stepUs s.seq.bpm ≤ (t.now - t.seq.lastStepTs).toNat) :
    ∃ u, clockTick t = .ok u ∧ u.now = t.now ∧ FiredSteps (n + 1) s u := by
  obtain ⟨b, -, htick⟩ := Machine.clockTick_due (h.pattern.symm ▸ hp) (h.running.trans hrun) (h.bpm.symm ▸ hdue)
  refine ⟨_, htick, rfl, ?trace, ?seq, h.pattern⟩
  case trace => simp [h.trace, h.seq, notifications_succ]
  case seq => simp [h.seq, BitVec.ofNat_add, Nat.succ_mul, BitVec.add_assoc]

theorem clockTick_early (hearly : (t.now - t.seq.lastStepTs).toNat < stepUs s.seq.bpm) : clockTick t = .ok t :=
  clockTick_idle (.inr (h.bpm.symm ▸ hearly))

end FiredSteps

/-! ### A backlog -/

theorem ticks_succ (k : Nat) (s : State) : ticks (k + 1) s = (do let t ← ticks k s; clockTick t) := by
  induction k generalizing s with
  | zero => exact bind_pure _
  | succ k ih =>
    rw [ticks, ticks, bind_assoc]
    exact congrArg _ (funext ih)

/-- Ticks at one time fire one step each, as long as the backlog lasts (R120). -/
theorem ticks_fire {s : State} (hp : s.pattern.Ok) (hrun : s.seq.running = true) {k : Nat}
    (hk : k * stepUs s.seq.bpm ≤ (s.now - s.seq.lastStepTs).toNat) : ∃ t, ticks k s = .ok t ∧ t.now = s.now ∧ FiredSteps k s t := by
  induction k with
  | zero => exact ⟨s, rfl, rfl, .zero s⟩
  | succ k ih =>
    rw [Nat.succ_mul] at hk
    have hbefore := Nat.le_of_add_right_le hk
    obtain ⟨t, hticks, hnow, h⟩ := ih hbefore
    have hleft := h.elapsed_of_now_eq hnow hbefore
    obtain ⟨u, htick, hkept, hu⟩ := h.clockTick_due hp hrun (hleft ▸ Nat.le_sub_of_add_le' hk)
    refine ⟨u, ?_, hkept.trans hnow, hu⟩
    rw [ticks_succ, hticks, op_bind_ok, htick]

/-- Settles O39: `k` ticks fire `k` of the `m` steps, and the tick after them has less than one step left. -/
theorem backlogIsWorkedOffOneStepPerTick : Obligations.BacklogIsWorkedOffOneStepPerTick := by
  intro s m r hp hrun helapsed hr
  have hbacklog {k : Nat} (hk : k ≤ m) : k * stepUs s.seq.bpm ≤ (s.now - s.seq.lastStepTs).toNat :=
    (Nat.mul_le_mul_right _ hk).trans (helapsed.symm ▸ Nat.le_add_right ..)
  refine ⟨fun k hk => ?fires, ?quiet⟩
  case fires =>
    obtain ⟨t, hticks, -, h⟩ := ticks_fire hp hrun (hbacklog hk)
    exact ⟨t, hticks, h.trace, h.lastStepTs⟩
  case quiet =>
    obtain ⟨t, hticks, hnow, h⟩ := ticks_fire hp hrun (hbacklog le_rfl)
    have hleft : (t.now - t.seq.lastStepTs).toNat = r := by
      rw [h.elapsed_of_now_eq hnow (hbacklog le_rfl), helapsed]
      exact Nat.add_sub_cancel_left _ _
    refine ⟨t, hticks, ?_⟩
    rw [ticks_succ, hticks, op_bind_ok]
    exact h.clockTick_early (hleft.trans_lt hr)

/-! ### Ticks less than a step apart -/

/-- A tick less than a step length after the offset `prev` keeps the count at the quotient: it fires exactly when the quotient grows (R121). -/
theorem FiredSteps.tickAt {s t : State} {prev now : Nat} (h : FiredSteps (prev / stepUs s.seq.bpm) s t) (hp : s.pattern.Ok)
    (hq : s.seq.Ok) (hrun : s.seq.running = true) (hle : prev ≤ now) (hlt : now < prev + stepUs s.seq.bpm) :
    ∃ u, Certificates.tickAt s.seq.lastStepTs now t = .ok u ∧ FiredSteps (now / stepUs s.seq.bpm) s u := by
  obtain ⟨hleast, hgreatest, -⟩ := stepLengthIsInRange s.seq.bpm hq.1 hq.2
  have hbelow := Nat.div_mul_le_self prev (stepUs s.seq.bpm)
  have habove := Nat.lt_div_mul_add (a := prev) (b := stepUs s.seq.bpm) (by omega)
  have hlatched := h.withNow (s.seq.lastStepTs + BitVec.ofNat 32 now)
  have helapsed := hlatched.elapsed rfl (hbelow.trans hle) (by omega)
  rcases Nat.lt_or_ge (now - prev / stepUs s.seq.bpm * stepUs s.seq.bpm) (stepUs s.seq.bpm) with hearly | hdue
  · have hquotient : now / stepUs s.seq.bpm = prev / stepUs s.seq.bpm :=
      Nat.div_eq_of_lt_le (hbelow.trans hle) (by rw [Nat.succ_mul]; omega)
    exact ⟨_, hlatched.clockTick_early (helapsed.trans_lt hearly), hquotient ▸ hlatched⟩
  · have hquotient : now / stepUs s.seq.bpm = prev / stepUs s.seq.bpm + 1 :=
      Nat.div_eq_of_lt_le (by rw [Nat.succ_mul]; omega) (by rw [Nat.succ_mul, Nat.succ_mul]; omega)
    obtain ⟨u, htick, -, hu⟩ := hlatched.clockTick_due hp hrun (helapsed.symm ▸ hdue)
    exact ⟨u, htick, hquotient ▸ hu⟩

theorem FiredSteps.ticksAt {s t : State} {ts : List Nat} {prev last : Nat} (h : FiredSteps (prev / stepUs s.seq.bpm) s t)
    (hp : s.pattern.Ok) (hq : s.seq.Ok) (hrun : s.seq.running = true) (hspaced : SpacedBelow (stepUs s.seq.bpm) prev ts)
    (hlast : (prev :: ts).getLast? = some last) :
    ∃ u, Certificates.ticksAt s.seq.lastStepTs ts t = .ok u ∧ FiredSteps (last / stepUs s.seq.bpm) s u := by
  induction ts generalizing prev t with
  | nil =>
    cases hlast
    exact ⟨t, rfl, h⟩
  | cons now ts ih =>
    obtain ⟨hle, hlt, hrest⟩ := hspaced
    obtain ⟨u, htick, hu⟩ := h.tickAt hp hq hrun hle hlt
    rw [List.getLast?_cons_cons] at hlast
    rw [Certificates.ticksAt, htick, op_bind_ok]
    exact ih hu hrest hlast

/-- Settles O40: no step has fired at the offset 0, and every tick keeps the count at the quotient of its offset. -/
theorem ticksBelowAStepApartFireEveryStep : Obligations.TicksBelowAStepApartFireEveryStep := by
  rintro s _ ts last hp hq hrun rfl hspaced hlast
  have hstart : FiredSteps (0 / stepUs s.seq.bpm) s s := (Nat.zero_div _).symm ▸ .zero s
  obtain ⟨t, hticks, h⟩ := hstart.ticksAt hp hq hrun hspaced hlast
  exact ⟨t, hticks, h.trace, h.lastStepTs, h.running.trans hrun, h.bpm, h.pattern⟩

end Sys2Proof.Machine
end

section
/-! SUPPORT. One frame from the five records of a bank, and successive frames as the statements write them (43_mixer_rendersink.md R122 to R129). -/

namespace Sys2Proof.Machine

open Sys2Proof.Certificates

/-! ### The clamp -/

theorem clampSample_of_le {acc : Int} (h : acc ≤ -32768) : clampSample acc = -32768 := by
  simp only [clampSample, clamp, Config.outMin, Config.outMax]; omega

theorem clampSample_of_ge {acc : Int} (h : 32767 ≤ acc) : clampSample acc = 32767 := by
  simp only [clampSample, clamp, Config.outMin, Config.outMax]; omega

theorem clampSample_of_mem {acc : Int} (hlo : -32768 ≤ acc) (hhi : acc ≤ 32767) : clampSample acc = acc := by
  simp only [clampSample, clamp, Config.outMin, Config.outMax]; omega

/-! ### One frame -/

/-- A frame is made of the five records, each rendered as it stood in the bank before the frame: the records rendered earlier do not reach it
(R97, R122, R123). -/
theorem mixFrame_of_renders {sr : Nat} {p : Int} {b b' : Bank} {a : Fin 5 → Int} (h : ∀ c : Fin 5, b[c].render sr p = .ok (a c, b'[c])) :
    mixFrame sr p b = .ok (stereo (clampSample (∑ c, a c)), b') := by
  have hput (x : Bank) (c : Fin 5) (hx : x[c.val] = b[c.val]) : renderSample sr p x c.val = .ok (a c, Vector.set x c.val b'[c.val]) :=
    (renderSample_eq_ok c.isLt).2 ⟨_, (congrArg (Channel.render sr p) hx).trans (h c), rfl⟩
  have h0 := hput b 0 rfl
  have h1 := hput (b.set 0 b'[0]) 1 (by simp)
  have h2 := hput ((b.set 0 b'[0]).set 1 b'[1]) 2 (by simp)
  have h3 := hput (((b.set 0 b'[0]).set 1 b'[1]).set 2 b'[2]) 3 (by simp)
  have h4 := hput ((((b.set 0 b'[0]).set 1 b'[1]).set 2 b'[2]).set 3 b'[3]) 4 (by simp)
  have hall : ((((b.set 0 b'[0]).set 1 b'[1]).set 2 b'[2]).set 3 b'[3]).set 4 b'[4] = b' := by
    apply Bank.ext_five <;> simp
  rw [Fin.sum_univ_five, ← hall, mixFrame]
  exact op_bind_eq_ok.2 ⟨_, h0, op_bind_eq_ok.2 ⟨_, h1, op_bind_eq_ok.2 ⟨_, h2,
    op_bind_eq_ok.2 ⟨_, h3, op_bind_eq_ok.2 ⟨_, h4, rfl⟩⟩⟩⟩⟩

/-- Settles O41: each sample is at most the peak, which is at most 6553, so the sum of five stays within the clamp. -/
theorem frameIsTheExactSum : Obligations.FrameIsTheExactSum := by
  refine ⟨fun acc => ⟨clampSample_of_le, clampSample_of_ge, clampSample_of_mem⟩, fun sr v b hb => ?_⟩
  have hpeak := peak_le v
  choose a ch hrender hlo hhi _ using fun c : Fin 5 => Channel.render_spec (sr := sr) (peak_nonneg v) (hb c).1 (hb c).2
  have hrender' (c : Fin 5) : b[c].render sr (peak v) = .ok (a c, (Vector.ofFn ch)[c]) := by simpa using hrender c
  have hsum : |∑ c, a c| ≤ 32765 :=
    calc |∑ c, a c| ≤ ∑ c, |a c| := Finset.abs_sum_le_sum_abs ..
      _ ≤ ∑ _c : Fin 5, peak v := Finset.sum_le_sum fun c _ => abs_le.2 ⟨hlo c, hhi c⟩
      _ ≤ 32765 := by simp; omega
  obtain ⟨hsum_lo, hsum_hi⟩ := abs_le.1 hsum
  refine ⟨_, _, a, mixFrame_of_renders hrender', hrender', hsum, ?_, rfl⟩
  rw [clampSample_of_mem (by omega) (by omega), stereo, BitVec.toInt_ofInt, Int.bmod_eq_of_le (by omega) (by omega)]

/-! ### Successive frames -/

theorem framesFrom_of_mixFrames {sr : Nat} {p : Int} {n : Nat} {b b' : Bank} {fs : List Frame} (h : mixFrames sr p n b = .ok (fs, b')) :
    FramesFrom sr p b fs b' := by
  induction n generalizing b fs with
  | zero =>
    cases h
    exact rfl
  | succ n ih =>
    obtain ⟨⟨f, b1⟩, hframe, h⟩ := op_bind_eq_ok.1 h
    obtain ⟨⟨gs, b2⟩, hrest, h⟩ := op_bind_eq_ok.1 h
    cases h
    exact ⟨b1, hframe, ih hrest⟩

/-- A bank in which no channel is active. -/
def Bank.Silent (b : Bank) : Prop := ∀ c : Fin 5, b[c].active = false

/-- A bank without an active channel gives frames of zero and stays as it is (R86, R123). -/
theorem mixFrames_silent {sr : Nat} {p : Int} {b : Bank} (hb : b.Silent) (n : Nat) :
    mixFrames sr p n b = .ok (List.replicate n ⟨0, 0⟩, b) := by
  have hframe : mixFrame sr p b = .ok (⟨0, 0⟩, b) := by
    rw [mixFrame_of_renders (a := 0) fun c => Channel.render_inactive (hb c)]
    rfl
  induction n with
  | zero => rfl
  | succ n ih => exact op_bind_eq_ok.2 ⟨_, hframe, op_bind_eq_ok.2 ⟨_, ih, rfl⟩⟩

end Sys2Proof.Machine
end

section
/-! SUPPORT. The byte stream of EXPORT: the WAVE header (43_mixer_rendersink.md R138), the bytes of the frames (R139) and the writes that carry
them (R135). -/

namespace Sys2Proof.Machine

open Sys2Proof.Certificates

/-! ### The WAVE header -/

theorem leBytes_two (v : Nat) : leBytes 2 v = [BitVec.ofNat 8 v, BitVec.ofNat 8 (v >>> 8)] := rfl

theorem leBytes_four (v : Nat) :
    leBytes 4 v = [BitVec.ofNat 8 v, BitVec.ofNat 8 (v >>> 8), BitVec.ofNat 8 (v >>> 16), BitVec.ofNat 8 (v >>> 24)] := rfl

/-- A four-byte field has the value it was made of, the least significant byte first (R47). -/
theorem leBytes_four_value {v : Nat} (hv : v < 2 ^ 32) :
    ∃ b0 b1 b2 b3 : Byte, leBytes 4 v = [b0, b1, b2, b3] ∧ b0.toNat + 2 ^ 8 * b1.toNat + 2 ^ 16 * b2.toNat + 2 ^ 24 * b3.toNat = v := by
  refine ⟨_, _, _, _, leBytes_four v, ?_⟩
  simp only [BitVec.toNat_ofNat, Nat.shiftRight_eq_div_pow]
  omega

/-- Settles O42: with every field written out in bytes each tag, constant and size stands at its offset. -/
theorem wavHeaderLayout : Obligations.WavHeaderLayout := by
  intro sr n hsr hn
  have hfield {off v : Nat} (hbytes : ((wavHeader sr n).drop off).take 4 = leBytes 4 v) (hv : v < 2 ^ 32) :
      ∃ b0 b1 b2 b3 : Byte, ((wavHeader sr n).drop off).take 4 = [b0, b1, b2, b3] ∧
        b0.toNat + 2 ^ 8 * b1.toNat + 2 ^ 16 * b2.toNat + 2 ^ 24 * b3.toNat = v :=
    hbytes ▸ leBytes_four_value hv
  refine ⟨wavHeader_length sr n, ?riff, ?constants, ?data, fun off v hmem => ?sizes⟩
  case sizes =>
    simp only [List.mem_cons, Prod.mk.injEq, List.not_mem_nil, or_false] at hmem
    rcases hmem with ⟨rfl, rfl⟩ | ⟨rfl, rfl⟩ | ⟨rfl, rfl⟩ | ⟨rfl, rfl⟩ <;>
      exact hfield (by simp [wavHeader, leBytes_two, leBytes_four]) (by omega)
  all_goals simp [wavHeader, leBytes_two, leBytes_four]

/-! ### The data writes -/

/-- The data writes are full chunks, and after them at most one remainder, shorter and nonempty (R135). -/
theorem dataWrites_eq {chunk : Nat} (h : 1 ≤ chunk) (fs : List Frame) :
    ∃ full rest : List (List Frame), dataWrites chunk fs = full ++ rest ∧ rest.length ≤ 1 ∧ (∀ w ∈ full, w.length = chunk) ∧
      ∀ w ∈ rest, 1 ≤ w.length ∧ w.length < chunk := by
  have hfull := chunkFrames_full chunk [] fs
  have hlt := chunkFrames_rest (buf := []) h h fs
  by_cases hrest : (chunkFrames chunk [] fs).2 = []
  · exact ⟨_, [], by simp [dataWrites, hrest], by simp, hfull, by simp⟩
  · have hpos := List.length_pos_iff.2 hrest
    exact ⟨_, [(chunkFrames chunk [] fs).2], if_neg hrest, le_rfl, hfull, by simpa using ⟨hpos, hlt⟩⟩

/-- Settles O45: only the remainder is not a full chunk, and it is the last write. -/
theorem dataGoesOutInFullChunks : Obligations.DataGoesOutInFullChunks := by
  intro chunk fs hchunk
  obtain ⟨full, rest, heq, hlast, hfull, hrest⟩ := dataWrites_eq hchunk fs
  refine ⟨dataWrites_flatten chunk fs, ?before, ?each⟩ <;> rw [heq]
  case before =>
    intro k w hk hlt
    rw [List.length_append] at hlt
    rw [List.getElem?_append_left (by omega)] at hk
    exact hfull w (List.mem_of_getElem? hk)
  case each =>
    intro w hw
    rcases List.mem_append.1 hw with hw | hw
    · exact ⟨hfull w hw ▸ hchunk, (hfull w hw).le⟩
    · exact ⟨(hrest w hw).1, (hrest w hw).2.le⟩

/-! ### What reaches the storage sink -/

theorem sinkBytes_append (os ps : List PortOutput) : sinkBytes (os ++ ps) = sinkBytes os ++ sinkBytes ps := List.flatMap_append

theorem sinkBytes_cons (o : PortOutput) (os : List PortOutput) : sinkBytes (o :: os) = sinkBytes [o] ++ sinkBytes os :=
  sinkBytes_append [o] os

/-- Readback data does not go to the sink (R39). -/
theorem sinkBytes_readbacks {os : List PortOutput} (h : ∀ o ∈ os, ∃ a d, o = .rbData a d) : sinkBytes os = [] := by
  refine List.flatMap_eq_nil_iff.2 fun o ho => ?_
  obtain ⟨a, d, rfl⟩ := h o ho
  rfl

/-- A write goes to the sink whole. -/
theorem sinkBytes_write (bs : List Byte) : sinkBytes [.sinkWrite bs] = bs := List.append_nil bs

theorem framesBytes_append (fs gs : List Frame) : framesBytes (fs ++ gs) = framesBytes fs ++ framesBytes gs := List.flatMap_append

/-- Writes of frames carry the bytes of all their frames, in order (R135). -/
theorem sinkBytes_frameWrites (ws : List (List Frame)) : sinkBytes (ws.map fun c => .sinkWrite (framesBytes c)) = framesBytes ws.flatten := by
  induction ws with
  | nil => rfl
  | cons w ws ih => rw [List.map_cons, sinkBytes_cons, sinkBytes_write, ih, List.flatten_cons, framesBytes_append]

/-- An opened session sends the header and then the frames, whatever the chunk size (R130, R135). -/
theorem sinkBytes_session (s : State) (n : Nat) (fs : List Frame) :
    sinkBytes (.sinkOpen true :: sessionOutputs s n fs ++ [.exportDone 1]) =
      wavHeader s.params.sampleRate (exportDataBytes s n) ++ framesBytes fs := by
  have hopen : sinkBytes [.sinkOpen true] = [] := rfl
  have hclose : sinkBytes [.sinkClose] = [] := rfl
  have hdone : sinkBytes [.exportDone 1] = [] := rfl
  rw [sinkBytes_append, hdone, List.append_nil, sinkBytes_cons, hopen, List.nil_append, sessionOutputs, sinkBytes_append, hclose,
    List.append_nil, sinkBytes_cons, sinkBytes_write, sinkBytes_frameWrites, dataWrites_flatten]

/-- The bytes of a frame: left first, the low byte first (R139, R47). -/
theorem framesBytes_eq (fs : List Frame) :
    framesBytes fs = fs.flatMap fun f => [f.left.extractLsb' 0 8, f.left.extractLsb' 8 8, f.right.extractLsb' 0 8, f.right.extractLsb' 8 8] := rfl

theorem framesBytes_zeros (n : Nat) : framesBytes (List.replicate n ⟨0, 0⟩) = List.replicate (4 * n) 0 := by
  induction n with
  | zero => rfl
  | succ n ih =>
    rw [List.replicate_succ', framesBytes_append, ih, Nat.mul_succ, List.replicate_add]
    rfl

end Sys2Proof.Machine
end

section
/-! SUPPORT. A session of EXPORT as its own port events with other ports' events between them (60_exceptions.md R171), and the frame of EXPORT
(43_mixer_rendersink.md R131, R137, R141). -/

namespace Sys2Proof.Machine

open Sys2Proof.Certificates

/-! ### Own port events and those between them -/

theorem eventsInside_eq_insideEvents (s : State) : eventsInside s = insideEvents s := by
  unfold eventsInside insideEvents
  cases s.env.sessions <;> rfl

/-- Side events do the same in two states that agree on what they read, and write nothing but Q, the packets offered and the outputs. -/
theorem sideEvents_agree {es : List SideEvent} {s x u : State} (ha : SideAgree s x) (h : sideEvents es s = .next u) :
    ∃ rb y, sideEvents es x = .next y ∧ y.trace = x.trace ++ rb ∧ SideAgree u y ∧
      u = { s with queue := y.queue, env := { s.env with offered := y.env.offered }, trace := s.trace ++ rb } := by
  obtain ⟨rb, y, htrace, hy, hagree, hform⟩ := sideEvents_congr ha h
  obtain ⟨taken, rb', hu, -⟩ := sideEvents_cases h
  refine ⟨rb, y, hy, by rw [hform], hagree, ?_⟩
  rw [hagree.queue, hagree.offered, ← htrace, hu]

/-- The scratch bank, the frame buffer and the sink's answer do not show at other ports (R39). -/
theorem sideAgree_sinkOpened (s : State) (x : Bank) (buf : List Frame) : SideAgree (((sinkOpened s).withScratch x).withFrameBuf buf) s :=
  ⟨rfl, rfl, rfl, rfl, rfl, rfl, rfl⟩

theorem SideAgree.emit {s x : State} (h : SideAgree s x) (os : List PortOutput) : SideAgree (s.emit os) x :=
  ⟨h.live, h.pattern, h.seq, h.g, h.queue, h.depth, h.offered⟩

/-- A session is the interleaving of R171: its own port events in order, the report last, and what falls between them performed on the state
as it is then. `x` is any state that shows the other ports what `s` shows them. -/
theorem exportSession_interleaved {status : BitVec 2} {os : List PortOutput} {inside : List (List SideEvent)} {s x t : State} (ha : SideAgree s x)
    (h : exportSession status os inside s = .next t) :
    ∃ out u, Interleaved (os ++ [.exportDone status]) inside x out u ∧
      t = { s with g := { s.g with exportStatus := status }, queue := u.queue, env := { s.env with offered := u.env.offered },
                   trace := s.trace ++ out } := by
  induction os generalizing inside s x with
  | nil =>
    obtain ⟨u, hu, h⟩ := andThen_eq_next.1 h
    obtain ⟨rb, y, hy, htrace, -, hform⟩ := sideEvents_agree ha hu
    cases h
    refine ⟨rb ++ [.exportDone status], y, ⟨rb, y, [], hy, htrace, ⟨rfl, rfl⟩, rfl⟩, ?_⟩
    simp [hform, exportDone, State.withG, State.emit]
  | cons o os ih =>
    obtain ⟨u, hu, h⟩ := andThen_eq_next.1 h
    obtain ⟨rb, y, hy, htrace, hagree, hform⟩ := sideEvents_agree ha hu
    obtain ⟨more, v, hmore, ht⟩ := ih (hagree.emit [o]) h
    refine ⟨rb ++ o :: more, v, ⟨rb, y, more, hy, htrace, hmore, rfl⟩, ?_⟩
    simp [ht, hform, State.emit]

/-- What falls between the own port events sends nothing to the sink (R39). -/
theorem sinkBytes_interleaved {own : List PortOutput} {inside : List (List SideEvent)} {s u : State} {out : List PortOutput}
    (h : Interleaved own inside s out u) : sinkBytes out = sinkBytes own := by
  induction own generalizing inside s out with
  | nil =>
    obtain ⟨rfl, -⟩ := h
    rfl
  | cons o own ih =>
    obtain ⟨rb, v, more, hv, htrace, hmore, rfl⟩ := h
    obtain ⟨_, rb', hform, -, -, hrb, -⟩ := sideEvents_cases hv
    have hsame : rb = rb' := List.append_cancel_left (htrace.symm.trans (congrArg State.trace hform))
    rw [sinkBytes_append, sinkBytes_readbacks (hsame ▸ hrb), List.nil_append, sinkBytes_cons, ih hmore, ← sinkBytes_cons]

/-- Settles O17: the session is total on whole packets, and the state it starts from differs from `s` only where no other port looks. -/
theorem exportOpenFailureOnlyReports : Obligations.ExportOpenFailureOnlyReports := by
  intro s a0 rest hfail hoffered
  have hagree : SideAgree (sinkOpened s) s := sideAgree_sinkOpened s s.scratch s.frameBuf
  obtain ⟨t, ht⟩ := exportSession_total (status := 2) (os := [.sinkOpen false]) (inside := insideEvents s) (s := sinkOpened s) hoffered
  obtain ⟨out, u, hout, rfl⟩ := exportSession_interleaved hagree ht
  exact ⟨_, out, u, (runExport_failed hfail _).trans ht, eventsInside_eq_insideEvents s ▸ hout, rfl⟩

/-! ### The frame of EXPORT -/

/-- The outputs of the sequencer and of the live sink, which no command makes (R117, R127). -/
def PortOutput.OfLive : PortOutput → Prop
  | .notify _ | .audioOut _ => True
  | _ => False

/-- Neither the report of the status nor readback data is of the live part. -/
theorem not_ofLive_of_session {status : BitVec 2} {os : List PortOutput} (hos : ∀ o ∈ os, ¬ o.OfLive) {o : PortOutput}
    (h : o ∈ os ++ [.exportDone status] ∨ ∃ a d, o = .rbData a d) : ¬ o.OfLive := by
  rcases h with h | ⟨a, d, rfl⟩
  · rcases List.mem_append.1 h with h | h
    · exact hos o h
    · rw [List.mem_singleton.1 h]
      exact id
  · exact id

theorem not_ofLive_of_mem_sessionOutputs {s : State} {n : Nat} {fs : List Frame} {o : PortOutput}
    (h : o ∈ PortOutput.sinkOpen true :: sessionOutputs s n fs) : ¬ o.OfLive := by
  simp only [sessionOutputs, List.mem_cons, List.mem_append, List.mem_map, List.not_mem_nil, or_false] at h
  rcases h with rfl | (rfl | ⟨c, -, rfl⟩) | rfl <;> exact id

/-- What every EXPORT leaves, opened or not: the scratch bank, the frame buffer, EXPORT_STATUS, Q, the outside agents and the outputs may
differ; packets offered move to the tail of Q in order; no output is of the live part (R131, R137, R141). -/
theorem runExport_frame {n : Nat} {s t : State} (h : runExport n s = .next t) :
    ∃ (x : Bank) (buf : List Frame) (status : BitVec 2) (taken left : List Packet) (out : List PortOutput),
      t = { s with scratch := x, frameBuf := buf, g := { s.g with exportStatus := status }, queue := s.queue ++ taken, trace := s.trace ++ out,
                   env := { s.env with offered := left, sessions := s.env.sessions.tail, sinkCalls := s.env.sinkCalls + 1 } } ∧
      s.env.offered = taken ++ left ∧ ∀ o ∈ out, ¬ o.OfLive := by
  rcases runExport_cases h with ⟨-, h⟩ | ⟨fs, x, -, -, h⟩
  · obtain ⟨taken, out, ht, hoffered, -, hout, -⟩ := exportSession_cases (s := sinkOpened s) h
    have hown : ∀ o ∈ [PortOutput.sinkOpen false], ¬ o.OfLive := by simp [PortOutput.OfLive]
    exact ⟨_, _, 2, taken, _, out, ht, hoffered, fun o ho => not_ofLive_of_session hown (hout o ho)⟩
  · obtain ⟨taken, out, ht, hoffered, -, hout, -⟩ := exportSession_cases (s := ((sinkOpened s).withScratch x).withFrameBuf _) h
    exact ⟨x, _, 1, taken, _, out, ht, hoffered, fun o ho => not_ofLive_of_session (fun _ => not_ofLive_of_mem_sessionOutputs) (hout o ho)⟩

/-- Settles O22: a short EXPORT is dropped, every other one keeps to the frame of `runExport_frame`. -/
theorem exportKeepsLiveState : Obligations.ExportKeepsLiveState := by
  intro s t args h
  cases exec_effect h with
  | short =>
    exact ⟨rfl, rfl, rfl, rfl, rfl, rfl, rfl, rfl, List.prefix_rfl, rfl, [], (List.append_nil _).symm, by simp, by simp⟩
  | recorded a0 rest hrun =>
    obtain ⟨x, buf, status, taken, left, out, rfl, hoffered, hout⟩ := runExport_frame hrun
    have hqueue : s.queue ++ taken ++ left = s.queue ++ s.env.offered := by rw [hoffered, List.append_assoc]
    exact ⟨rfl, rfl, rfl, rfl, rfl, rfl, rfl, rfl, List.prefix_append _ _, hqueue, out, rfl, fun _ h => hout _ h trivial,
      fun _ h => hout _ h trivial⟩

end Sys2Proof.Machine
end

section
/-! SUPPORT. The render of EXPORT (43_mixer_rendersink.md R133, R134): as steps of frames, what it reads of the state, and what it gives for a
pattern without notes; and the bytes that an opened EXPORT sends (R130, R139, R140). -/

namespace Sys2Proof.Machine

open Sys2Proof.Certificates

/-! ### The bytes of an opened EXPORT -/

/-- An opened EXPORT that answers a next state has rendered its frames from the baseline, keeps the last records in the scratch bank, and has
sent the header and the frames (R130, R133, R135). -/
theorem runExport_opened_bytes {n : Nat} {s t : State} (hopen : sinkAnswer s = true) (h : runExport n s = .next t) :
    ∃ fs os, exportLoops s n Bank.reset = .ok (fs, t.scratch) ∧ t.trace = s.trace ++ os ∧
      sinkBytes os = wavHeader s.params.sampleRate (exportDataBytes s n) ++ framesBytes fs := by
  rcases runExport_cases h with ⟨hfail, -⟩ | ⟨fs, x, -, hrender, hsession⟩
  · simp [hopen] at hfail
  · obtain ⟨out, u, hout, rfl⟩ := exportSession_interleaved (sideAgree_sinkOpened s x _) hsession
    exact ⟨fs, out, hrender, rfl, (sinkBytes_interleaved hout).trans (sinkBytes_session s n fs)⟩

/-- An opened EXPORT whose render succeeds completes when the packets offered are whole packets (R59). -/
theorem runExport_opened_total {n : Nat} {s : State} (hopen : sinkAnswer s = true) (hoffered : ∀ p ∈ s.env.offered, p.wf = true)
    {r : List Frame × Bank} (hrender : exportLoops s n Bank.reset = .ok r) : ∃ t, runExport n s = .next t := by
  rw [runExport, if_pos hopen, hrender]
  exact exportSession_total hoffered

/-! ### The render, step by step -/

theorem stepsFrom_append {s : State} {sps : Nat} {steps steps' : List Nat} {x x1 x2 : Bank} {fs gs : List Frame}
    (h : StepsFrom s sps x steps fs x1) (h' : StepsFrom s sps x1 steps' gs x2) : StepsFrom s sps x (steps ++ steps') (fs ++ gs) x2 := by
  induction steps generalizing x fs with
  | nil =>
    obtain ⟨rfl, rfl⟩ := h
    exact h'
  | cons i steps ih =>
    obtain ⟨y, z, as, bs, htrigger, hlen, hframes, hrest, rfl⟩ := h
    exact ⟨y, z, as, bs ++ gs, htrigger, hlen, hframes, ih hrest, List.append_assoc ..⟩

theorem stepsFrom_of_exportSteps {s : State} {steps : List Nat} {x x' : Bank} {fs : List Frame} (h : exportSteps s steps x = .ok (fs, x')) :
    StepsFrom s (samplesPerStep s.params.sampleRate s.seq.bpm) x steps fs x' := by
  induction steps generalizing x fs with
  | nil =>
    cases h
    exact ⟨rfl, rfl⟩
  | cons i steps ih =>
    obtain ⟨⟨gs, x2⟩, hstep, h⟩ := op_bind_eq_ok.1 h
    obtain ⟨⟨hs, x3⟩, hrest, h⟩ := op_bind_eq_ok.1 h
    obtain ⟨x1, htrigger, hmix⟩ := op_bind_eq_ok.1 hstep
    cases h
    exact ⟨x1, x2, gs, hs, htrigger, mixFrames_length hmix, framesFrom_of_mixFrames hmix, ih hrest, rfl⟩

/-- `n` loops are the steps 0 to 15, `n` times over (R134). -/
theorem stepsFrom_of_exportLoops {s : State} {n : Nat} {x x' : Bank} {fs : List Frame} (h : exportLoops s n x = .ok (fs, x')) :
    StepsFrom s (samplesPerStep s.params.sampleRate s.seq.bpm) x (List.replicate n (List.range 16)).flatten fs x' := by
  induction n generalizing x fs with
  | zero =>
    cases h
    exact ⟨rfl, rfl⟩
  | succ n ih =>
    obtain ⟨⟨gs, x1⟩, hsteps, h⟩ := op_bind_eq_ok.1 h
    obtain ⟨⟨hs, x2⟩, hrest, h⟩ := op_bind_eq_ok.1 h
    cases h
    rw [List.replicate_succ, List.flatten_cons]
    exact stepsFrom_append (stepsFrom_of_exportSteps hsteps) (ih hrest)

/-- Settles O43: the render of a legal pattern succeeds, its frames are those of its steps, and their number is the header's data size. -/
theorem exportedBytesAreTheRenderedFrames : Obligations.ExportedBytesAreTheRenderedFrames := by
  intro s a0 rest hopen hpattern hparams hoffered
  obtain ⟨fs, x, hrender, hlen, -⟩ := exportLoops_spec hpattern hparams (loopsArg a0) Bank.reset_ok
  obtain ⟨t, ht⟩ := runExport_opened_total hopen hoffered hrender
  obtain ⟨gs, os, hrender', htrace, hbytes⟩ := runExport_opened_bytes hopen ht
  obtain ⟨rfl, rfl⟩ : fs = gs ∧ x = t.scratch := by simpa using hrender.symm.trans hrender'
  have hsize : exportDataBytes s (loopsArg a0) = 4 * fs.length := by rw [hlen]; rfl
  rw [hsize, framesBytes_eq] at hbytes
  exact ⟨fs, _, t, os, stepsFrom_of_exportLoops hrender, ht, rfl, htrace, hbytes⟩

/-! ### What the render reads -/

/-- The two states hold the same in everything a render reads (R133, R134). -/
structure RenderAgree (s1 s2 : State) : Prop where
  pattern : s1.pattern = s2.pattern
  bpm : s1.seq.bpm = s2.seq.bpm
  volume : s1.g.volume = s2.g.volume
  sampleRate : s1.params.sampleRate = s2.params.sampleRate
  melodicDecay : s1.params.melodicDecay = s2.params.melodicDecay

namespace RenderAgree

variable {s1 s2 : State} (h : RenderAgree s1 s2)
include h

theorem exportStep_eq (x : Bank) (step : Nat) : exportStep s1 x step = exportStep s2 x step := by
  simp only [exportStep, h.pattern, h.bpm, h.volume, h.sampleRate, h.melodicDecay]

theorem exportSteps_eq (steps : List Nat) (x : Bank) : exportSteps s1 steps x = exportSteps s2 steps x := by
  induction steps generalizing x with
  | nil => rfl
  | cons i steps ih => simp only [exportSteps, h.exportStep_eq, ih]

theorem exportLoops_eq (n : Nat) (x : Bank) : exportLoops s1 n x = exportLoops s2 n x := by
  induction n generalizing x with
  | zero => rfl
  | succ n ih => simp only [exportLoops, h.exportSteps_eq, ih]

theorem exportDataBytes_eq (n : Nat) : exportDataBytes s1 n = exportDataBytes s2 n := by
  simp only [exportDataBytes, h.bpm, h.sampleRate]

end RenderAgree

/-- Settles O44: both runs render the same frames and size their header alike; a short EXPORT sends nothing. -/
theorem exportBytesDoNotDependOnLiveState : Obligations.ExportBytesDoNotDependOnLiveState := by
  intro s1 s2 t1 t2 args hpattern hbpm hvolume hrate hdecay hopen1 hopen2 h1 h2
  have hagree : RenderAgree s1 s2 := ⟨hpattern, hbpm, hvolume, hrate, hdecay⟩
  cases args with
  | nil =>
    cases h1
    cases h2
    exact ⟨[], [], (List.append_nil _).symm, (List.append_nil _).symm, rfl⟩
  | cons a0 rest =>
    obtain ⟨fs1, os1, hrender1, htrace1, hbytes1⟩ := runExport_opened_bytes hopen1 h1
    obtain ⟨fs2, os2, hrender2, htrace2, hbytes2⟩ := runExport_opened_bytes hopen2 h2
    rw [hagree.exportLoops_eq] at hrender1
    obtain ⟨rfl, -⟩ : fs1 = fs2 ∧ t1.scratch = t2.scratch := by simpa using hrender1.symm.trans hrender2
    exact ⟨os1, os2, htrace1, htrace2, by rw [hbytes1, hbytes2, hrate, hagree.exportDataBytes_eq]⟩

/-! ### A pattern without notes -/

/-- Every cell a rest, every hit off (R140); the waveform fields are free. -/
structure PatternStore.Empty (p : PatternStore) : Prop where
  rest : ∀ (tr : Fin 2) (st : Fin 16), p.mel[tr][st].freqHz = 0
  off : ∀ (d : Fin 3) (st : Fin 16), p.drum[d][st] = false

theorem Bank.reset_silent : Bank.reset.Silent := by unfold Bank.Silent; decide

theorem Bank.Silent.set {b : Bank} (hb : b.Silent) {c : Nat} (hc : c < 5) {ch : Channel} (h : ch.active = false) :
    Bank.Silent (Vector.set b c ch hc) := by
  intro i
  simp only [Fin.getElem_fin, Vector.getElem_set]
  split
  · exact h
  · exact hb i

theorem triggerMelodicTrack_rest {decay : Q24} {p : PatternStore} (hp : p.Empty) {s : Nat} (hs : s < 16) (b : Bank) {t : Nat} (ht : t < 2) :
    triggerMelodicTrack decay p s b t = .ok (b.set t b[t].released) := by
  have hrest : p.mel[t][s].freqHz = 0 := hp.rest ⟨t, ht⟩ ⟨s, hs⟩
  simp [triggerMelodicTrack, memReadMel_eq ht hs, hrest, release_eq ht]

theorem triggerDrumTrack_off {p : PatternStore} (hp : p.Empty) {s : Nat} (hs : s < 16) (b : Bank) {d : Nat} (hd : d < 3) :
    triggerDrumTrack p s b d = .ok b := by
  have hoff : p.drum[d][s] = false := hp.off ⟨d, hd⟩ ⟨s, hs⟩
  simp [triggerDrumTrack, memReadDrum_eq hd hs, hoff]

/-- A step of an empty pattern only releases, so a silent bank stays silent (R104). -/
theorem triggerStep_empty {decay : Q24} {p : PatternStore} (hp : p.Empty) {s : Nat} (hs : s < 16) {b : Bank} (hb : b.Silent) :
    ∃ b', triggerStep decay p b s = .ok b' ∧ Bank.Silent b' := by
  refine ⟨(b.set 0 b[0].released).set 1 (b.set 0 b[0].released)[1].released, ?_, (hb.set (by decide) rfl).set (by decide) rfl⟩
  rw [triggerStep, if_pos hs, triggerMelodicTrack_rest hp hs b (by decide : 0 < 2), op_bind_ok,
    triggerMelodicTrack_rest hp hs _ (by decide : 1 < 2), op_bind_ok, triggerDrumTrack_off hp hs _ (by decide : 0 < 3), op_bind_ok,
    triggerDrumTrack_off hp hs _ (by decide : 1 < 3), op_bind_ok, triggerDrumTrack_off hp hs _ (by decide : 2 < 3)]

theorem exportStep_empty {s : State} (hp : s.pattern.Empty) {step : Nat} (hstep : step < 16) {x : Bank} (hx : x.Silent) :
    ∃ x', exportStep s x step = .ok (List.replicate (samplesPerStep s.params.sampleRate s.seq.bpm) ⟨0, 0⟩, x') ∧ Bank.Silent x' := by
  obtain ⟨x', htrigger, hx'⟩ := triggerStep_empty (decay := s.params.melodicDecay) hp hstep hx
  exact ⟨x', op_bind_eq_ok.2 ⟨x', htrigger, mixFrames_silent hx' _⟩, hx'⟩

theorem exportSteps_empty {s : State} (hp : s.pattern.Empty) {steps : List Nat} (hsteps : ∀ i ∈ steps, i < 16) {x : Bank} (hx : x.Silent) :
    ∃ x', exportSteps s steps x =
      .ok (List.replicate (steps.length * samplesPerStep s.params.sampleRate s.seq.bpm) ⟨0, 0⟩, x') ∧ Bank.Silent x' := by
  induction steps generalizing x with
  | nil => exact ⟨x, by simp [exportSteps], hx⟩
  | cons i steps ih =>
    obtain ⟨hi, hrest⟩ := List.forall_mem_cons.1 hsteps
    obtain ⟨x1, h1, hx1⟩ := exportStep_empty hp hi hx
    obtain ⟨x2, h2, hx2⟩ := ih hrest hx1
    refine ⟨x2, ?_, hx2⟩
    rw [List.length_cons, Nat.succ_mul, Nat.add_comm, List.replicate_add]
    exact op_bind_eq_ok.2 ⟨_, h1, op_bind_eq_ok.2 ⟨_, h2, rfl⟩⟩

/-- A pattern without notes renders frames of zero only (R140). -/
theorem exportLoops_empty {s : State} (hp : s.pattern.Empty) (n : Nat) {x : Bank} (hx : x.Silent) :
    ∃ x', exportLoops s n x = .ok (List.replicate (n * 16 * samplesPerStep s.params.sampleRate s.seq.bpm) ⟨0, 0⟩, x') ∧ Bank.Silent x' := by
  induction n generalizing x with
  | zero => exact ⟨x, by simp [exportLoops], hx⟩
  | succ n ih =>
    obtain ⟨x1, h1, hx1⟩ := exportSteps_empty hp (steps := List.range 16) (by simp) hx
    obtain ⟨x2, h2, hx2⟩ := ih hx1
    refine ⟨x2, ?_, hx2⟩
    rw [Nat.succ_mul, Nat.add_mul, Nat.add_comm (n * 16 * _), List.replicate_add]
    exact op_bind_eq_ok.2 ⟨_, h1, op_bind_eq_ok.2 ⟨_, h2, rfl⟩⟩

/-- Settles O46: the baseline is silent, an empty pattern keeps it so, and a frame of zero is four zero bytes. -/
theorem emptyPatternExportsSilence : Obligations.EmptyPatternExportsSilence := by
  intro s a0 rest hopen hoffered hrest hoff
  obtain ⟨x, hrender, -⟩ := exportLoops_empty ⟨hrest, hoff⟩ (loopsArg a0) Bank.reset_silent
  obtain ⟨t, ht⟩ := runExport_opened_total hopen hoffered hrender
  obtain ⟨fs, os, hrender', htrace, hbytes⟩ := runExport_opened_bytes hopen ht
  obtain ⟨rfl, -⟩ : List.replicate _ ⟨0, 0⟩ = fs ∧ x = t.scratch := by simpa using hrender.symm.trans hrender'
  exact ⟨t, os, ht, htrace, framesBytes_zeros _ ▸ hbytes⟩

end Sys2Proof.Machine
end

section
/-! SUPPORT. One burst per service iteration (43_mixer_rendersink.md R127, R128; 70_reset_and_hazards.md R177): nothing before it reaches the live sink. -/

namespace Sys2Proof.Machine

open Sys2Proof.Certificates

/-- `t` extends `s` without a burst: the parameters are the same, and no AudioOut is among the outputs since. -/
def ExtendsWithoutBurst (s t : State) : Prop :=
  t.params = s.params ∧ ∃ os, t.trace = s.trace ++ os ∧ ∀ fs, PortOutput.audioOut fs ∉ os

theorem ExtendsWithoutBurst.of_eq {s t : State} (hp : t.params = s.params) (ho : t.trace = s.trace) : ExtendsWithoutBurst s t :=
  ⟨hp, [], by rw [ho, List.append_nil], by simp⟩

theorem ExtendsWithoutBurst.trans {s t u : State} (hst : ExtendsWithoutBurst s t) (htu : ExtendsWithoutBurst t u) : ExtendsWithoutBurst s u := by
  obtain ⟨hp, os, ho, hn⟩ := hst
  obtain ⟨hp', os', ho', hn'⟩ := htu
  refine ⟨hp'.trans hp, os ++ os', by rw [ho', ho, List.append_assoc], fun fs h => ?_⟩
  exact (List.mem_append.1 h).elim (hn fs) (hn' fs)

/-- No command delivers frames to the live sink (R127). -/
theorem exec_extendsWithoutBurst {i : Instr} {s t : State} (h : exec i s = .next t) : ExtendsWithoutBurst s t := by
  cases exec_effect h with
  | recorded a0 rest hrun =>
    obtain ⟨_, _, _, _, _, out, rfl, -, hout⟩ := runExport_frame hrun
    exact ⟨rfl, out, rfl, fun fs hfs => hout _ hfs trivial⟩
  | _ => exact .of_eq rfl rfl

theorem drain_extendsWithoutBurst {k : Nat} {s t : State} (h : drain k s = .next t) : ExtendsWithoutBurst s t := by
  induction k generalizing s with
  | zero =>
    cases h
    exact .of_eq rfl rfl
  | succ k ih =>
    cases hq : s.queue with
    | nil =>
      cases (drain_succ_empty hq k).symm.trans h
      exact .of_eq rfl rfl
    | cons p ps =>
      rw [drain_succ hq] at h
      obtain ⟨u, hu, h⟩ := andThen_eq_next.1 h
      have hpacket : ExtendsWithoutBurst (s.withQueue ps) u := by
        rcases executePacket_cases hu with ⟨i, -, hi⟩ | rfl
        · exact exec_extendsWithoutBurst hi
        · exact .of_eq rfl rfl
      exact hpacket.trans (ih h)

theorem clockTick_extendsWithoutBurst {s t : State} (h : clockTick s = .ok t) : ExtendsWithoutBurst s t := by
  rcases clockTick_cases h with rfl | ⟨b, -, -, -, rfl⟩
  · exact .of_eq rfl rfl
  · exact ⟨rfl, [.notify s.seq.currentStep], rfl, by simp⟩

/-- Settles O53: the drain and the tick deliver no frames, and then the burst delivers those of the bank the tick leaves. -/
theorem everyServiceEndsWithOneBurst : Obligations.EveryServiceEndsWithOneBurst := by
  intro s t now h
  obtain ⟨u, hdrain, h⟩ := andThen_eq_next.1 h
  obtain ⟨v, htick, hburst⟩ := tickAndBurst_cases h
  obtain ⟨fs, b, hmix, rfl⟩ := liveBurst_cases hburst
  obtain ⟨hparams, before, hbefore, hnone⟩ := (drain_extendsWithoutBurst hdrain).trans (clockTick_extendsWithoutBurst htick)
  replace hparams : v.params = s.params := hparams
  replace hbefore : v.trace = s.trace ++ before := hbefore
  rw [hparams] at hmix
  refine ⟨u, v, before, fs, hdrain, htick, hbefore, hnone, mixFrames_length hmix, framesFrom_of_mixFrames hmix, ?_⟩
  rw [← hbefore]
  rfl

end Sys2Proof.Machine
end

section
/-! SUPPORT. The packets and commands that are dropped (44_commands.md R154, R155), and the commands that set one field (R145, R146, R149, R150). -/

namespace Sys2Proof.Machine

open Sys2Proof.Certificates

/-! ### Dropped packets and commands -/

/-- The decoder has no command for an opcode that R66 reserves. -/
theorem decode_of_reserved {p : Packet} (hwf : p.wf = true) (hopc : Reserved (opcOf p.header)) :
    decode p = .error (.reservedOpcode (opcOf p.header)) := by
  have hrange : (opcOf p.header).toNat = 0 ∨ 0x0C ≤ (opcOf p.header).toNat := hopc.imp_left fun h => by rw [h]; rfl
  rw [decode, if_pos hwf]
  split
  case h_12 => rfl
  all_goals omega

/-- Settles O4: the decoder refuses the packet, and the drain drops what it refuses for its opcode. -/
theorem reservedOpcodeIsDropped : Obligations.ReservedOpcodeIsDropped := by
  intro p s hwf hopc
  have hdecode := decode_of_reserved hwf hopc
  exact ⟨hdecode, by rw [executePacket, hdecode]; rfl⟩

/-- Settles O7, command by command: the meaning of an operand list below REQ is the drop. -/
theorem shortCommandIsDropped : Obligations.ShortCommandIsDropped := by
  intro i s hshort
  cases i with
  | liveNoteOn args | setWaveform args | setVolume args | setBpm args | exportWav args =>
    obtain rfl : args = [] := List.length_eq_zero_iff.1 (Nat.lt_one_iff.1 hshort)
    rfl
  | liveNoteOff | seqStart | seqStop | seqClear => exact absurd hshort (Nat.not_lt_zero _)
  | setMelodicStep args =>
    match args with
    | [] | [_] | [_, _] | [_, _, _] => rfl
    | _ :: _ :: _ :: _ :: rest => exact absurd hshort (by simp [Instr.operands, Instr.required])
  | setDrumStep args =>
    match args with
    | [] | [_] | [_, _] => rfl
    | _ :: _ :: _ :: rest => exact absurd hshort (by simp [Instr.operands, Instr.required])

/-! ### Commands that set one field -/

/-- Settles O11: the operands of the statement are those of `waveformArg`, `volumeArg` and `bpmArg`. -/
theorem setCommandsStoreTheirClampedOperand : Obligations.SetCommandsStoreTheirClampedOperand :=
  fun _ _ _ => ⟨rfl, rfl, rfl⟩

/-- Settles O14 from the definition of `start`. -/
theorem seqStartRestartsAtStepZero : Obligations.SeqStartRestartsAtStepZero := fun _ => rfl

/-- Settles O20: each effect writes its one field, and a short command nothing. -/
theorem settingCommandsKeepAllElse : Obligations.SettingCommandsKeepAllElse := by
  intro s t args
  refine ⟨fun h => ?waveform, fun h => ?volume, fun h => ?bpm, fun h => ?start⟩ <;> cases exec_effect h <;> rfl

end Sys2Proof.Machine
end

section
/-! SUPPORT. What the live notes, SEQ_STOP and SEQ_CLEAR leave in each record of the live bank (44_commands.md R143, R144, R151, R152). -/

namespace Sys2Proof.Machine

/-! ### Records of the live bank -/

/-- One record of a bank rewritten: the others are as before. -/
theorem Bank.getElem_set_apply (b : Bank) {k : Nat} (hk : k < 5) (f : Channel → Channel) (c : Fin 5) :
    (Vector.set b k (f b[k]))[c] = if c.val ≠ k then b[c] else f b[c] := by
  rw [Fin.getElem_fin, Vector.getElem_set]
  by_cases h : k = c.val
  · subst h; simp
  · simp [h, Ne.symm h]

/-- A rewrite of one melodic record leaves every other channel, and relates each record to its new one as `f` does. -/
theorem Bank.set_apply_frame {b b' : Bank} {k : Nat} (hk : k < 2) {f : Channel → Channel} {R : Channel → Channel → Prop}
    (hset : b' = Vector.set b k (f b[k])) (hsame : ∀ ch, R ch ch) (hf : ∀ ch, R ch (f ch)) :
    (∀ c : Fin 5, c.val ≠ k → b'[c] = b[c]) ∧ (∀ c : Fin 5, 2 ≤ c.val → b'[c] = b[c]) ∧ ∀ c : Fin 5, R b[c] b'[c] := by
  have hget : ∀ c : Fin 5, b'[c] = if c.val ≠ k then b[c] else f b[c] := hset ▸ Bank.getElem_set_apply b (by omega) f
  refine ⟨fun c hc => (hget c).trans (if_pos hc), fun c hc => (hget c).trans (if_pos (by omega)), fun c => ?_⟩
  rw [hget c]
  split
  · exact hsame _
  · exact hf _

/-- Both melodic channels released, as stop and clear leave the live bank (R111, R112). -/
def Bank.releasedMelodic (b : Bank) : Bank := Vector.set (Vector.set b 0 b[0].released) 1 b[1].released

theorem Bank.getElem_releasedMelodic (b : Bank) (c : Fin 5) :
    b.releasedMelodic[c] = if c.val < 2 then b[c].released else b[c] := by
  unfold Bank.releasedMelodic
  fin_cases c <;> simp

/-- Percussion rings on, and of a melodic record only ACTIVE and ENV_LEVEL change (R77). -/
theorem Bank.releasedMelodic_frame (b : Bank) :
    (∀ c : Fin 5, 2 ≤ c.val → b.releasedMelodic[c] = b[c]) ∧
      ∀ c : Fin 5, b.releasedMelodic[c] =
        { b[c] with active := b.releasedMelodic[c].active, envLevel := b.releasedMelodic[c].envLevel } := by
  refine ⟨fun c hc => (b.getElem_releasedMelodic c).trans (if_neg (by omega)), fun c => ?_⟩
  rw [b.getElem_releasedMelodic c]
  split <;> rfl

/-- The record a live note leaves in its channel (R143). -/
def Channel.noted (f : Nat) (w : WaveCode) (decay : Q24) (ch : Channel) : Channel :=
  if f = 0 then ch.released else ch.triggered f w.toNat decay

/-- A live note with its operands in range completes (R143). -/
theorem liveNote_eq {f c : Nat} {s : State} (hf : f ≤ 65535) (hc : c < 2) (hw : s.g.liveWave.toNat ≤ 2) :
    liveNote f c s = .ok (s.withLive (s.live.set c (s.live[c].noted f s.g.liveWave s.params.melodicDecay))) := by
  unfold liveNote Channel.noted
  split
  · rw [release_eq hc, op_bind_ok]
  · rw [trigger_eq hc ⟨by omega, hf⟩ hw, op_bind_ok]

/-- Settles O9: the live note completes, and it rewrites the one record its channel operand addresses. -/
theorem liveNoteOnTriggersOrReleasesItsChannel : Obligations.LiveNoteOnTriggersOrReleasesItsChannel := by
  intro s a0 rest hw
  have hc := optChannelArg_lt rest 0
  refine ⟨_, congrArg ofOp (liveNote_eq (frequencyArg_le a0) hc hw), rfl, fun c => ?_⟩
  refine (Bank.getElem_set_apply s.live (by omega) (Channel.noted (frequencyArg a0) s.g.liveWave s.params.melodicDecay) c).trans ?_
  rw [Channel.noted, Channel.triggered_eq_melodicNote]
  rfl

/-- Settles O10: a release of a clamped channel operand succeeds, and rewrites the one record it addresses. -/
theorem liveNoteOffReleasesItsChannel : Obligations.LiveNoteOffReleasesItsChannel := by
  intro s args
  have hc := optChannelArg_lt args 0
  exact ⟨_, execLiveNoteOff_eq args s hc, rfl, Bank.getElem_set_apply s.live (by omega) Channel.released⟩

/-- Settles O15: the two melodic records are released, in the live bank of a state that is Stopped. -/
theorem seqStopReleasesTheMelodicChannels : Obligations.SeqStopReleasesTheMelodicChannels :=
  fun s => ⟨_, congrArg ofOp (seqStop_eq s), rfl, Bank.getElem_releasedMelodic s.live⟩

/-- Settles O16: the cleared pattern cell by cell, and the two melodic records released. -/
theorem seqClearEmptiesThePattern : Obligations.SeqClearEmptiesThePattern :=
  fun s => ⟨_, congrArg ofOp (seqClear_eq s), rfl, fun tr st => clearPattern_mel tr.isLt st.isLt,
    fun d st => clearPattern_drum d.isLt st.isLt, Bank.getElem_releasedMelodic s.live⟩

/-- Settles O19: every effect of a live note rewrites the one addressed record, its LFSR kept, and a release keeps all but ACTIVE and ENV_LEVEL. -/
theorem liveNoteCommandsKeepAllElse : Obligations.LiveNoteCommandsKeepAllElse := by
  intro s t args
  refine ⟨fun h => ?on, fun h => ?off⟩ <;> cases exec_effect h
  case on.short => exact ⟨rfl, fun _ _ => rfl, fun _ _ => rfl, fun _ => rfl⟩
  case on.noteRest hc _ =>
    exact ⟨rfl, Bank.set_apply_frame hc (f := Channel.released) (R := fun ch ch' => ch'.lfsr = ch.lfsr) rfl (fun _ => rfl) fun _ => rfl⟩
  case on.noteOn a0 _ hc _ =>
    exact ⟨rfl, Bank.set_apply_frame hc (f := fun ch => ch.triggered (frequencyArg a0) s.g.liveWave.toNat s.params.melodicDecay)
      (R := fun ch ch' => ch'.lfsr = ch.lfsr) rfl (fun _ => rfl) fun _ => rfl⟩
  case off.short hshort => exact absurd hshort (Nat.not_lt_zero _)
  case off.noteOff hc =>
    exact ⟨rfl, Bank.set_apply_frame hc (f := Channel.released)
      (R := fun ch ch' => ch' = { ch with active := ch'.active, envLevel := ch'.envLevel }) rfl (fun _ => rfl) fun _ => rfl⟩

end Sys2Proof.Machine
end

section
/-! SUPPORT. The cells that SET_MELODIC_STEP and SET_DRUM_STEP write (44_commands.md R147, R148), and the frame of the commands that write cells
or release voices (R151, R152). -/

namespace Sys2Proof.Machine

/-- A melodic cell after the write of one, the indices as the statements compare them (R101, R105). -/
theorem mel_setCell (m : Vector (Vector MelCell 16) 2) {t s : Nat} (ht : t < 2) (hs : s < 16) (cell : MelCell) (tr : Fin 2) (st : Fin 16) :
    (m.set t (m[t].set s cell))[tr][st] = if tr.val = t ∧ st.val = s then cell else m[tr][st] := by
  simp only [Fin.getElem_fin, getElem_setMel m ht hs tr.isLt st.isLt, eq_comm]

/-- A hit flag after the write of one, the indices as the statements compare them (R102). -/
theorem drum_setHit (m : Vector (Vector Bool 16) 3) {t s : Nat} (ht : t < 3) (hs : s < 16) (hit : Bool) (d : Fin 3) (st : Fin 16) :
    (m.set t (m[t].set s hit))[d][st] = if d.val = t ∧ st.val = s then hit else m[d][st] := by
  simp only [Fin.getElem_fin, getElem_setDrum m ht hs d.isLt st.isLt, eq_comm]

/-- HIT is set exactly for a positive operand: the clamp to [0, 1] sends it to 1, every other to 0 (R148). -/
theorem hitFlag_hitArg (w : Word) : hitFlag (hitArg w) = decide (0 < w.toInt) := by
  by_cases h : 0 < w.toInt
  · have harg : hitArg w = 1 := by simp only [hitArg, clampArg, clamp]; omega
    simp [harg, h, hitFlag]
  · have harg : hitArg w = 0 := by simp only [hitArg, clampArg, clamp]; omega
    simp [harg, h, hitFlag]

/-- Settles O12: clamped operands address a cell, and the write of it leaves the other cells. -/
theorem setMelodicStepWritesOneCell : Obligations.SetMelodicStepWritesOneCell := by
  intro s a0 a1 a2 a3 rest
  have htr := Nat.lt_succ_of_le (melodicTrackArg_le a0)
  have hst := Nat.lt_succ_of_le (stepArg_le a1)
  exact ⟨_, execSetMelodicStep_eq a0 a1 a2 a3 rest s htr hst, rfl, mel_setCell s.pattern.mel htr hst _⟩

/-- Settles O13: clamped operands address a hit flag, and the write of it leaves the other flags. -/
theorem setDrumStepWritesOneHit : Obligations.SetDrumStepWritesOneHit := by
  intro s a0 a1 a2 rest
  have hd := Nat.lt_succ_of_le (drumTrackArg_le a0)
  have hst := Nat.lt_succ_of_le (stepArg_le a1)
  refine ⟨_, execSetDrumStep_eq a0 a1 a2 rest s hd hst, rfl, ?_⟩
  rw [hitFlag_hitArg]
  exact drum_setHit s.pattern.drum hd hst _

/-- Settles O21, effect by effect: a cell elsewhere is not the one written, and a released voice keeps all but ACTIVE and ENV_LEVEL. -/
theorem patternAndStopCommandsKeepAllElse : Obligations.PatternAndStopCommandsKeepAllElse := by
  intro s t args
  refine ⟨fun h => ?mel, fun h => ?drum, fun h => ?clear, fun h => ?stop⟩ <;> cases exec_effect h
  case mel.short | drum.short => exact ⟨rfl, fun _ _ _ => rfl⟩
  case mel.melodicStep htr hst => exact ⟨rfl, fun tr st hne => (mel_setCell s.pattern.mel htr hst _ tr st).trans (if_neg hne)⟩
  case drum.drumStep hd hst => exact ⟨rfl, fun d st hne => (drum_setHit s.pattern.drum hd hst _ d st).trans (if_neg hne)⟩
  case clear.short hshort | stop.short hshort => exact absurd hshort (Nat.not_lt_zero _)
  case clear.clear | stop.stop => exact ⟨rfl, s.live.releasedMelodic_frame⟩

end Sys2Proof.Machine
end

section
/-! SUPPORT. An opened EXPORT as a whole: its session in the order of R130 and R171, its size and its writes (44_commands.md R153,
43_mixer_rendersink.md R132, R135). -/

namespace Sys2Proof.Machine

open Sys2Proof.Certificates

/-- The own port events of an opened session, from the open to the report, written out (R130, R136). -/
theorem sessionOutputs_own (s : State) (n : Nat) (fs : List Frame) :
    PortOutput.sinkOpen true :: sessionOutputs s n fs ++ [PortOutput.exportDone 1] =
      PortOutput.sinkOpen true :: PortOutput.sinkWrite (wavHeader s.params.sampleRate (exportDataBytes s n)) ::
        (((dataWrites s.params.chunkFrames fs).map framesBytes).map PortOutput.sinkWrite ++ [PortOutput.sinkClose, PortOutput.exportDone 1]) := by
  simp [sessionOutputs]

/-- An opened EXPORT of a legal pattern completes: its `N * 16 * sps` frames leave as one interleaved session (R130, R132, R171), and only the
scratch bank, the frame buffer, EXPORT_STATUS, Q, the outside agents and the outputs differ (R137, R141). -/
theorem runExport_opened_session {n : Nat} {s : State} (hopen : sinkAnswer s = true) (hpattern : s.pattern.Ok) (hparams : s.params.Ok)
    (hoffered : ∀ p ∈ s.env.offered, p.wf = true) :
    ∃ t fs out u, runExport n s = .next t ∧ fs.length = n * 16 * samplesPerStep s.params.sampleRate s.seq.bpm ∧
      Interleaved (.sinkOpen true :: sessionOutputs s n fs ++ [.exportDone 1]) (eventsInside s) s out u ∧
      t = { s with scratch := t.scratch, frameBuf := t.frameBuf, g := { s.g with exportStatus := 1 }, queue := u.queue, trace := s.trace ++ out,
                   env := { s.env with offered := u.env.offered, sessions := s.env.sessions.tail, sinkCalls := s.env.sinkCalls + 1 } } := by
  obtain ⟨fs, x, -, hlen, -, hrun⟩ := runExport_opened hopen hpattern hparams n
  obtain ⟨t, ht⟩ := exportSession_total (status := 1) (os := .sinkOpen true :: sessionOutputs s n fs) (inside := insideEvents s)
    (s := ((sinkOpened s).withScratch x).withFrameBuf (chunkFrames s.params.chunkFrames [] fs).2) hoffered
  obtain ⟨out, u, hout, rfl⟩ := exportSession_interleaved (sideAgree_sinkOpened s x _) ht
  exact ⟨_, fs, out, u, hrun.trans ht, hlen, eventsInside_eq_insideEvents s ▸ hout, rfl⟩

/-- Settles O18: the session of the rendered frames, 44 header bytes and four for each frame, the frames in full chunks. -/
theorem exportWritesTheWholeFile : Obligations.ExportWritesTheWholeFile := by
  intro s a0 rest hopen hpattern hparams hoffered
  obtain ⟨t, fs, out, u, ht, hlen, hout, hframe⟩ := runExport_opened_session (n := loopsArg a0) hopen hpattern hparams hoffered
  obtain ⟨-, -, -, -, -, -, hchunk⟩ := hparams
  obtain ⟨-, hfull, heach⟩ := dataGoesOutInFullChunks s.params.chunkFrames fs hchunk
  refine ⟨t, (dataWrites s.params.chunkFrames fs).map framesBytes, out, u, ht, sessionOutputs_own s (loopsArg a0) fs ▸ hout, ?bytes, ?full, ?each,
    hframe⟩
  case bytes =>
    rw [sinkBytes_interleaved hout, sinkBytes_session, List.length_append, wavHeader_length, framesBytes_length, hlen]
    rfl
  case full =>
    intro k w hk hlt
    rw [List.getElem?_map, Option.map_eq_some_iff] at hk
    obtain ⟨c, hc, rfl⟩ := hk
    rw [framesBytes_length, hfull k c hc (by simpa using hlt)]
  case each =>
    intro w hw
    obtain ⟨c, hc, rfl⟩ := List.mem_map.1 hw
    have := heach c hc
    rw [framesBytes_length]
    omega

end Sys2Proof.Machine
end

section
/-! SUPPORT. The command queue: what CmdAccept puts into Q (44_commands.md R156) and what a service iteration takes from it (R157, R170). -/

namespace Sys2Proof.Machine

/-- Room in Q: the oldest packet offered goes to its tail (R156). -/
theorem cmdAccept_room {s : State} {p : Packet} {ps : List Packet} (ho : s.env.offered = p :: ps) (hwf : p.wf = true)
    (hroom : s.queue.length < s.params.queueDepth) :
    cmdAccept s = .next ((s.withQueue (s.queue ++ [p])).withEnv { s.env with offered := ps }) := by
  simp [cmdAccept, cmdReady, ho, hwf, hroom]

/-- Q full: nothing is taken (R156). -/
theorem cmdAccept_full {s : State} (hfull : s.params.queueDepth ≤ s.queue.length) : cmdAccept s = .next s := by
  have hready : cmdReady s = false := by simpa [cmdReady] using hfull
  unfold cmdAccept
  split
  · rfl
  · rw [hready]; rfl

/-- Settles O48: the step is the CmdAccept event, in the state with that event off the schedule. -/
theorem commandPortAcceptsOrHoldsOff : Obligations.CommandPortAcceptsOrHoldsOff := by
  intro s p ps es ho hwf he
  rw [step_event he]
  exact ⟨fun hroom => cmdAccept_room (s := s.withEnv { s.env with events := es }) ho hwf hroom,
    fun hfull => cmdAccept_full (s := s.withEnv { s.env with events := es }) hfull⟩

/-! ### The drain -/

/-- From `s` to `t` packets offered move to the tail of Q, in order, and none is lost. -/
def Accepts (s t : State) : Prop := ∃ taken, t.queue = s.queue ++ taken ∧ s.env.offered = taken ++ t.env.offered

theorem Accepts.of_eq {s t : State} (hq : t.queue = s.queue) (ho : t.env.offered = s.env.offered) : Accepts s t :=
  ⟨[], by rw [hq, List.append_nil], ho.symm⟩

/-- A command takes packets into Q only inside an EXPORT (R141). -/
theorem exec_accepts {i : Instr} {s t : State} (h : exec i s = .next t) : Accepts s t := by
  cases exec_effect h with
  | recorded a0 rest hrun =>
    obtain ⟨_, _, _, taken, _, _, rfl, ho, -⟩ := runExport_frame hrun
    exact ⟨taken, rfl, ho⟩
  | _ => exact .of_eq rfl rfl

theorem executePacket_accepts {p : Packet} {s t : State} (h : executePacket p s = .next t) : Accepts s t := by
  rcases executePacket_cases h with ⟨i, -, hi⟩ | rfl
  · exact exec_accepts hi
  · exact .of_eq rfl rfl

/-- A drain of `k` packets takes those from the head of Q; the rest of Q and the packets offered stay in line (R157). -/
theorem drain_queue {k : Nat} {s t : State} (h : drain k s = .next t) (hk : k ≤ s.queue.length) :
    t.queue ++ t.env.offered = s.queue.drop k ++ s.env.offered := by
  induction k generalizing s with
  | zero => cases h; rfl
  | succ k ih =>
    obtain ⟨p, ps, hq⟩ := List.exists_cons_of_length_pos (Nat.zero_lt_of_lt hk)
    rw [drain_succ hq] at h
    obtain ⟨u, hu, h⟩ := andThen_eq_next.1 h
    obtain ⟨taken, hqueue, ho⟩ := executePacket_accepts hu
    replace hqueue : u.queue = ps ++ taken := hqueue
    replace ho : s.env.offered = taken ++ u.env.offered := ho
    have hps : k ≤ ps.length := by rw [hq] at hk; exact Nat.le_of_succ_le_succ hk
    have hdrop : u.queue.drop k = ps.drop k ++ taken := by rw [hqueue, List.drop_append_of_le_length hps]
    rw [ih h (by rw [hqueue, List.length_append]; omega), hdrop, hq, List.drop_succ_cons, ho, List.append_assoc]

/-- The tick and the burst leave Q and the packets offered alone (R177). -/
theorem tickAndBurst_keeps_queue {s t : State} (h : tickAndBurst s = .next t) : t.queue = s.queue ∧ t.env.offered = s.env.offered := by
  obtain ⟨u, htick, hburst⟩ := tickAndBurst_cases h
  obtain ⟨fs, b, -, rfl⟩ := liveBurst_cases hburst
  rcases clockTick_cases htick with rfl | ⟨c, -, -, -, rfl⟩ <;> exact ⟨rfl, rfl⟩

/-- Settles O49: the drain takes all of Q as it was, and the tick and the burst leave the queue as the drain does. -/
theorem drainLeavesOnlyLaterPackets : Obligations.DrainLeavesOnlyLaterPackets := by
  intro s t now h
  obtain ⟨u, hdrain, h⟩ := andThen_eq_next.1 h
  obtain ⟨hqueue, hoffered⟩ := tickAndBurst_keeps_queue h
  have hline : u.queue ++ u.env.offered = s.queue.drop s.queue.length ++ s.env.offered := drain_queue (s := s.withNow now) hdrain le_rfl
  rw [hqueue, hoffered, hline, List.drop_length, List.nil_append]

end Sys2Proof.Machine
end

section
/-! SUPPORT. What an internal operation answers to an operand outside its domain (60_exceptions.md R163). -/

namespace Sys2Proof.Machine

/-- A melodic trigger outside its domain faults, whichever operand is out of it (R73). -/
theorem trigger_outside {decay : Q24} {b : Bank} {c f w : Nat} (h : ¬ (c < 2 ∧ 1 ≤ f ∧ f ≤ 65535 ∧ w ≤ 2)) :
    trigger decay b c f w = .error (.indexRange .trigger) := by
  unfold trigger
  split
  · next hc => exact if_neg fun hfw => h ⟨hc, hfw⟩
  · rfl

/-- Settles O23: every operation reads its operands only under the test of its domain, and raises the fault where the test fails. -/
theorem internalOperationsFaultOutsideTheirDomain : Obligations.InternalOperationsFaultOutsideTheirDomain := by
  intro b p decay sr pk c t s f w h cell hit
  refine ⟨trigger_outside, ?kick, ?snare, ?hat, ?release, ?sample, ?setMelodic, ?setDrum, ?melodicCell, ?drumCell, ?step⟩
  case kick | snare | hat | setMelodic | setDrum => exact fun hout => if_neg hout
  case release | sample => exact fun hout => dif_neg (Nat.not_lt_of_le hout)
  case melodicCell | drumCell => exact fun hout => ⟨dif_neg hout, dif_neg hout⟩
  case step => exact fun hout => if_neg (Nat.not_lt_of_le hout)

end Sys2Proof.Machine
end

section
/-! SUPPORT. Each part of a step answers a next state from a state of the invariant (60_exceptions.md R163, R164): the clamps of R68 and the ranges of R41
keep every internal operation in its domain, and the packets in Q and at the command port are whole (R59). -/

namespace Sys2Proof.Machine

/-! ### The ports and the commands -/

theorem State.Inv.sideEvent_total {s : State} (h : s.Inv) (e : SideEvent) : ∃ t, Machine.sideEvent e s = .next t := by
  obtain ⟨t, ht⟩ := sideEvents_total (es := [e]) h.offeredWf
  obtain ⟨u, hu, -⟩ := andThen_eq_next.1 ht
  exact ⟨u, hu⟩

/-- EXPORT completes, whether the storage sink opens or not (R130, R131). -/
theorem State.Inv.runExport_total {s : State} (h : s.Inv) (n : Nat) : ∃ t, Machine.runExport n s = .next t := by
  cases hopen : sinkAnswer s with
  | false =>
    rw [runExport_failed hopen]
    exact exportSession_total h.offeredWf
  | true =>
    obtain ⟨fs, x, hrender, -⟩ := exportLoops_spec h.pattern h.params n Bank.reset_ok
    exact runExport_opened_total hopen h.offeredWf hrender

/-- Every command completes: one with too few operands is dropped (R155), every other has its operands clamped into the domains of what it calls (R68). -/
theorem State.Inv.exec_total {s : State} (h : s.Inv) (i : Instr) : ∃ t, Machine.exec i s = .next t := by
  cases i with
  | liveNoteOn args =>
    match args with
    | [] => exact ⟨s, rfl⟩
    | a0 :: rest => exact ⟨_, congrArg ofOp (liveNote_eq (frequencyArg_le a0) (optChannelArg_lt rest 0) h.g.1)⟩
  | liveNoteOff args => exact ⟨_, execLiveNoteOff_eq args s (optChannelArg_lt args 0)⟩
  | setWaveform args | setVolume args | setBpm args =>
    match args with
    | [] | _ :: _ => exact ⟨_, rfl⟩
  | setMelodicStep args =>
    match args with
    | [] | [_] | [_, _] | [_, _, _] => exact ⟨s, rfl⟩
    | a0 :: a1 :: a2 :: a3 :: rest =>
      exact ⟨_, execSetMelodicStep_eq a0 a1 a2 a3 rest s (Nat.lt_succ_of_le (melodicTrackArg_le a0)) (Nat.lt_succ_of_le (stepArg_le a1))⟩
  | setDrumStep args =>
    match args with
    | [] | [_] | [_, _] => exact ⟨s, rfl⟩
    | a0 :: a1 :: a2 :: rest =>
      exact ⟨_, execSetDrumStep_eq a0 a1 a2 rest s (Nat.lt_succ_of_le (drumTrackArg_le a0)) (Nat.lt_succ_of_le (stepArg_le a1))⟩
  | seqStart => exact ⟨_, rfl⟩
  | seqStop => exact ⟨_, congrArg ofOp (seqStop_eq s)⟩
  | seqClear => exact ⟨_, congrArg ofOp (seqClear_eq s)⟩
  | exportWav args =>
    match args with
    | [] => exact ⟨s, rfl⟩
    | a0 :: rest => exact h.runExport_total (loopsArg a0)

/-! ### The drain -/

/-- The decoder refuses a whole packet for its opcode alone (R62, R66). -/
theorem decode_cases_of_wf {p : Packet} (hwf : p.wf = true) :
    (∃ i, decode p = .ok i) ∨ decode p = .error (.reservedOpcode (opcOf p.header)) := by
  rw [decode, if_pos hwf]
  split
  case h_12 => exact .inr rfl
  all_goals exact .inl ⟨_, rfl⟩

theorem State.Inv.executePacket_total {s : State} (h : s.Inv) {p : Packet} (hwf : p.wf = true) : ∃ t, executePacket p s = .next t := by
  rcases decode_cases_of_wf hwf with ⟨i, hi⟩ | hreserved
  · rw [executePacket_ok hi]
    exact h.exec_total i
  · exact ⟨s, by rw [executePacket, hreserved]; rfl⟩

/-- A drained packet keeps the invariant, dropped or executed. -/
theorem State.Inv.executePacket {s t : State} (h : s.Inv) {p : Packet} (ht : executePacket p s = .next t) : t.Inv := by
  rcases executePacket_cases ht with ⟨i, -, hi⟩ | rfl
  · exact h.exec hi
  · exact h

/-- Any number of packets drains: the invariant that each leaves lets the next one complete (R157). -/
theorem State.Inv.drain_total {s : State} (h : s.Inv) (k : Nat) : ∃ t, drain k s = .next t := by
  induction k generalizing s with
  | zero => exact ⟨s, rfl⟩
  | succ k ih =>
    cases hq : s.queue with
    | nil => exact ⟨s, drain_succ_empty hq k⟩
    | cons p ps =>
      have hdequeued := h.dequeue hq
      obtain ⟨u, hu⟩ := hdequeued.executePacket_total (h.queueWf p (hq ▸ List.mem_cons_self))
      obtain ⟨t, ht⟩ := ih (hdequeued.executePacket hu)
      exact ⟨t, by rw [drain_succ hq, hu, andThen_next, ht]⟩

/-! ### The tick, the burst and the step -/

theorem State.Inv.clockTick_total {s : State} (h : s.Inv) : ∃ t, Machine.clockTick s = .ok t := by
  by_cases hidle : s.seq.running = false ∨ (s.now - s.seq.lastStepTs).toNat < stepUs s.seq.bpm
  · exact ⟨s, clockTick_idle hidle⟩
  · obtain ⟨hrun, hdue⟩ := not_or.1 hidle
    obtain ⟨b, -, htick⟩ := clockTick_due h.pattern (Bool.eq_true_of_not_eq_false hrun) (Nat.le_of_not_lt hdue)
    exact ⟨_, htick⟩

theorem State.Inv.liveBurst_total {s : State} (h : s.Inv) : ∃ t, Machine.liveBurst s = .ok t := by
  obtain ⟨fs, b, hmix, -⟩ := mixFrames_spec (peak_nonneg s.g.volume) s.params.burstFrames h.live
  exact ⟨_, by rw [Machine.liveBurst, hmix, op_bind_ok]⟩

/-- A service iteration completes: the drain, the tick and the burst, each from the invariant the part before it leaves (R177). -/
theorem State.Inv.service_total {s : State} (h : s.Inv) (now : Word) : ∃ t, service now s = .next t := by
  have hlatched := h.withNow now
  obtain ⟨u, hdrain⟩ := hlatched.drain_total s.queue.length
  have hu : u.Inv := invariant_holdsAcrossParts.drain _ hdrain hlatched
  obtain ⟨v, htick⟩ := hu.clockTick_total
  obtain ⟨t, hburst⟩ := (hu.clockTick htick).liveBurst_total
  exact ⟨t, by rw [service, hdrain, andThen_next, tickAndBurst, htick, ofOp_ok, andThen_next, hburst, ofOp_ok]⟩

theorem State.Inv.step_total {s : State} (h : s.Inv) : ∃ t, step s = .next t := by
  cases he : s.env.events with
  | nil => exact ⟨s, step_idle he⟩
  | cons e es =>
    have hscheduled : (s.withEnv { s.env with events := es }).Inv := h.withEnv rfl
    rw [step_event he]
    cases e with
    | side e => exact hscheduled.sideEvent_total e
    | service now => exact hscheduled.service_total now

/-- Settles O57: the step answers a next state, so it raises no fault. -/
theorem invariantStatesNeverFault : Obligations.InvariantStatesNeverFault := by
  intro s h
  obtain ⟨t, ht⟩ := h.step_total
  exact ⟨fun _ hfault => (by cases ht.symm.trans hfault), t, ht⟩

end Sys2Proof.Machine
end

section
/-! SUPPORT. The service iteration, packet by packet and with nothing to do (70_reset_and_hazards.md R177; 44_commands.md R142, R157). -/

namespace Sys2Proof.Machine

/-- With packets in Q the iteration begins with the head packet; the packets behind it, the tick and the burst follow (R157, R177). -/
theorem service_cons {s : State} {p : Packet} {ps : List Packet} (hq : s.queue = p :: ps) (now : Word) :
    service now s = andThen (executePacket p ((s.withNow now).withQueue ps)) fun t => andThen (drain ps.length t) tickAndBurst := by
  rw [service, hq, List.length_cons, drain_succ (s := s.withNow now) hq, andThen_assoc]

/-- With Q empty the iteration is the tick and the burst alone (R177). -/
theorem service_empty {s : State} (hq : s.queue = []) (now : Word) : service now s = tickAndBurst (s.withNow now) := by
  rw [service, hq, List.length_nil, drain_zero, andThen_next]

/-- The burst of a bank without an active channel is zero frames, and the bank stays (R86, R128). -/
theorem liveBurst_silent {s : State} (hlive : s.live.Silent) :
    liveBurst s = .ok (s.emit [.audioOut (List.replicate s.params.burstFrames ⟨0, 0⟩)]) := by
  rw [liveBurst, mixFrames_silent hlive, op_bind_ok]
  rfl

/-- Stopped and with no channel active, the tick does nothing and the burst is silent (R121, R128). -/
theorem tickAndBurst_idle {s : State} (hstopped : s.seq.running = false) (hlive : s.live.Silent) :
    tickAndBurst s = .next (s.emit [.audioOut (List.replicate s.params.burstFrames ⟨0, 0⟩)]) := by
  rw [tickAndBurst, clockTick_idle (.inl hstopped), ofOp_ok, andThen_next, liveBurst_silent hlive, ofOp_ok]

/-- Settles O54: nothing to drain, no tick, and a burst of a silent bank. -/
theorem idleServiceIsSilent : Obligations.IdleServiceIsSilent := by
  intro s now es he hq hstopped hlive
  rw [step_event he, portEvent, service_empty (s := s.withEnv { s.env with events := es }) hq]
  exact tickAndBurst_idle hstopped hlive

/-- Settles O47: the iteration executes the head packet first, and executing it is `exec` of what it decodes to. -/
theorem serviceStepRunsTheDecodedInstruction : Obligations.ServiceStepRunsTheDecodedInstruction := by
  intro s now es p ps i he hq hdecode
  rw [step_event he, portEvent, service_cons (s := s.withEnv { s.env with events := es }) hq, executePacket_ok hdecode]
  rfl

end Sys2Proof.Machine
end
